-- ==== Sys2Proof/Word.lean ====
section
/-! DEFINITION. The word types of the CHIP-8 CORE (10_state.md rules R30 to R37, 30_encoding.md rule R101).
Every value is an unsigned integer of a stated width (00_scope.md rule R9), so each is a bit vector and its
arithmetic is the bit vector's own, which wraps at the width. -/

namespace Sys2Proof

/-- A general register, a memory cell, a timer, the literal `kk` (10 R30, R36, R37, R42; 30 R101). -/
abbrev Byte := BitVec 8

/-- `I`, `pc`, a stack entry (10 R32, R33, R35). -/
abbrev Word := BitVec 16

/-- A 16-bit opcode (30 R100). -/
abbrev Opcode := BitVec 16

/-- A register index, the digit `x` or `y` of an opcode; all sixteen values are legal (30 R101, R103). -/
abbrev Reg := BitVec 4

/-- The digit `n` of an opcode: a count 0 to 15 (30 R101, R103). -/
abbrev Nibble := BitVec 4

/-- The address field `nnn` of an opcode, an unsigned byte address (30 R101, R103). -/
abbrev Addr12 := BitVec 12

/-- VF: the general register some instructions also use as a flag (10 R31). -/
abbrev VF : Reg := 0xF#4

end Sys2Proof
end

