-- ==== Sys2Proof/Machine/Params.lean ====
section
/-! DEFINITION. The open parameters of 00_scope.md rule R7 as the fields of one record, `Params`, and the record of
the values the spec's numbered rules take, `Params.spec`. Every operation that depends on a parameter takes it as an
argument; a meaning `execX` is `execXWith` at `Params.spec`, and Machine/Parametric.lean gives the machine at any
record (log entry 16). `rnd` is an argument of that machine's cycle. `EXEC_HZ` and `TICK_HZ` are not modelled, as R7
says (log entry 12). -/

namespace Sys2Proof.Machine

/-- `STACK_POLICY`: what a 17th nested `CALL` and an unmatched `RET` do (00 R7). -/
inductive StackPolicy where
  /-- They fault (60 R251; D3, D4). -/
  | fault
  /-- The pointer wraps around the entries, so that a 17th `CALL` overwrites `STK[0]` (the alternative of D3). -/
  | wrap
  deriving DecidableEq, Repr

/-- `MEM_OOR_POLICY`: what an access above 0xFFF does (00 R7). -/
inductive MemPolicy where
  /-- It faults (20 R75; D6, D7). -/
  | fault
  /-- The address wraps modulo 4096. DESIGN CHOICE (log entry 16): U2 names this value only to say that the model is
  not to take it for granted, and `Params.spec` does not. -/
  | wrap
  deriving DecidableEq, Repr

/-- `KEY_OOR_POLICY`: what `Ex9E` and `ExA1` do when `V[x] > 15` (00 R7). -/
inductive KeyPolicy where
  /-- They fault (44 R230, R231; D8). -/
  | fault
  /-- The index is masked to 4 bits. DESIGN CHOICE (log entry 16): D8 names this value only to call it a guess, and
  `Params.spec` does not take it. -/
  | mask
  deriving DecidableEq, Repr

/-- `VF_PRIORITY`: which write lands in VF when a flag-writing ALU instruction has `x = F` (00 R7). -/
inductive VfPriority where
  /-- The flag write lands last (41 R173). -/
  | flag
  /-- The result write lands last (the alternative of U4). -/
  | result
  deriving DecidableEq, Repr

/-- `KEYWAIT_PICK`: which key `Fx0A` reports when several are down (00 R7). -/
inductive KeyPick where
  /-- The lowest pressed index (44 R232). -/
  | lowest
  /-- The highest pressed index (the scan that runs on, 44 R232 corner case c). -/
  | highest
  /-- The `k`-th pressed index, counted around: over all `k`, any member of `P` (U7). -/
  | nth (k : Nat)
  deriving DecidableEq, Repr

/-- The open parameters (00 R7). -/
structure Params where
  /-- `FONT[5..79]`; `FONT[0..4]` is fixed (10 R43, D14). -/
  fontTail : Vector Byte 75
  /-- `SP_BITS`, the width of the stack pointer (D5). -/
  spBits : Nat
  /-- `STACK_POLICY` (D3, D4). -/
  stackPolicy : StackPolicy
  /-- `MEM_OOR_POLICY` (D6, D7). -/
  memPolicy : MemPolicy
  /-- `KEY_OOR_POLICY` (D8). -/
  keyPolicy : KeyPolicy
  /-- `VF_PRIORITY` (D10). -/
  vfPriority : VfPriority
  /-- `DECODE_STRICT`: whether `00E0`, `00EE`, `5xy0`, `9xy0` must match in every digit shown (D11). -/
  decodeStrict : Bool
  /-- `KEYWAIT_PICK` (D12). -/
  keyWaitPick : KeyPick
  /-- `SPRITE_MSB_LEFT`: whether bit 7 of a sprite byte is column 0 (D13). -/
  spriteMsbLeft : Bool
  deriving DecidableEq, Repr

/-- `FONT[0..4]`: glyph 0, the one glyph the source gives (10 R43, 95 X12). -/
def fontGlyph0 : List Byte := [0xF0, 0x90, 0x90, 0x90, 0xF0]

/-- Glyphs 1 to 7 (10 R43). UNVERIFIED (log entry 9): the spec takes them from general knowledge, D14. -/
def fontGlyphs1to7 : List Byte :=
  [0x20, 0x60, 0x20, 0x20, 0x70] ++ [0xF0, 0x10, 0xF0, 0x80, 0xF0] ++ [0xF0, 0x10, 0xF0, 0x10, 0xF0] ++
  [0x90, 0x90, 0xF0, 0x10, 0x10] ++ [0xF0, 0x80, 0xF0, 0x10, 0xF0] ++ [0xF0, 0x80, 0xF0, 0x90, 0xF0] ++
  [0xF0, 0x10, 0x20, 0x40, 0x40]

/-- Glyphs 8 to F (10 R43). UNVERIFIED (log entry 9): the spec takes them from general knowledge, D14. -/
def fontGlyphs8toF : List Byte :=
  [0xF0, 0x90, 0xF0, 0x90, 0xF0] ++ [0xF0, 0x90, 0xF0, 0x10, 0xF0] ++ [0xF0, 0x90, 0xF0, 0x90, 0x90] ++
  [0xE0, 0x90, 0xE0, 0x90, 0xE0] ++ [0xF0, 0x80, 0x80, 0x80, 0xF0] ++ [0xE0, 0x90, 0x90, 0x90, 0xE0] ++
  [0xF0, 0x80, 0xF0, 0x80, 0xF0] ++ [0xF0, 0x80, 0xF0, 0x80, 0x80]

/-- `FONT[0..79]` at the spec's values, sixteen glyphs of five bytes, top row first (10 R43). -/
def font : List Byte := fontGlyph0 ++ fontGlyphs1to7 ++ fontGlyphs8toF

/-- The values the spec's numbered rules take (00 R7, default column). Each is the spec's decision and UNVERIFIED of
the source: the font's tail log entry 9, the width of `SP` log entry 2, the three fault policies log entry 3, the flag
landing last log entry 5, the strict decode log entry 6, the lowest key log entry 7, the sprite's bit order log
entry 8. -/
def Params.spec : Params where
  fontTail := Vector.ofFn fun k => (fontGlyphs1to7 ++ fontGlyphs8toF).getD k.val 0#8
  spBits := 5
  stackPolicy := .fault
  memPolicy := .fault
  keyPolicy := .fault
  vfPriority := .flag
  decodeStrict := true
  keyWaitPick := .lowest
  spriteMsbLeft := true

/-- `FONT[0..79]` of a record of parameters: glyph 0 is the source's whatever the record (10 R43, D14). -/
def Params.font (p : Params) : List Byte := fontGlyph0 ++ p.fontTail.toList

end Sys2Proof.Machine
end

