-- ==== Sys2Proof/Syntax.lean ====
section
/-! DEFINITION. The instructions of the CHIP-8 CORE, one constructor per row of spec/opcode_table.json in the
table's order (30_encoding.md rule R106). An operand is a field of the opcode at its own width (30 R101, R103), so
every term is a legal instruction. `shrVx` and `shlVx` keep the `y` digit, which the encoding has and the
instruction ignores (30 R113). A word of no row is not an instruction (30 R107): `Sys2Proof.Decoded.unrecognised`. -/

namespace Sys2Proof

/-- The 34 instructions (00 R2, 30 R106). -/
inductive Instr where
  /-- `00E0` CLS (43 R210). -/
  | cls
  /-- `00EE` RET (40 R132). -/
  | ret
  /-- `1nnn` JP nnn (40 R133). -/
  | jp (nnn : Addr12)
  /-- `2nnn` CALL nnn (40 R134). -/
  | call (nnn : Addr12)
  /-- `3xkk` SE Vx, kk (40 R135). -/
  | seVxKk (x : Reg) (kk : Byte)
  /-- `4xkk` SNE Vx, kk (40 R136). -/
  | sneVxKk (x : Reg) (kk : Byte)
  /-- `5xy0` SE Vx, Vy (40 R137). -/
  | seVxVy (x y : Reg)
  /-- `6xkk` LD Vx, kk (41 R160). -/
  | ldVxKk (x : Reg) (kk : Byte)
  /-- `7xkk` ADD Vx, kk (41 R161). -/
  | addVxKk (x : Reg) (kk : Byte)
  /-- `8xy0` LD Vx, Vy (41 R162). -/
  | ldVxVy (x y : Reg)
  /-- `8xy1` OR Vx, Vy (41 R163). -/
  | orVxVy (x y : Reg)
  /-- `8xy2` AND Vx, Vy (41 R164). -/
  | andVxVy (x y : Reg)
  /-- `8xy3` XOR Vx, Vy (41 R165). -/
  | xorVxVy (x y : Reg)
  /-- `8xy4` ADD Vx, Vy (41 R166). -/
  | addVxVy (x y : Reg)
  /-- `8xy5` SUB Vx, Vy (41 R167). -/
  | subVxVy (x y : Reg)
  /-- `8xy6` SHR Vx (41 R168); `y` is encoded and ignored. -/
  | shrVx (x y : Reg)
  /-- `8xy7` SUBN Vx, Vy (41 R169). -/
  | subnVxVy (x y : Reg)
  /-- `8xyE` SHL Vx (41 R170); `y` is encoded and ignored. -/
  | shlVx (x y : Reg)
  /-- `9xy0` SNE Vx, Vy (40 R138). -/
  | sneVxVy (x y : Reg)
  /-- `Annn` LD I, nnn (42 R190). -/
  | ldI (nnn : Addr12)
  /-- `Bnnn` JP V0, nnn (40 R139). -/
  | jpV0 (nnn : Addr12)
  /-- `Cxkk` RND Vx, kk (41 R171). -/
  | rndVxKk (x : Reg) (kk : Byte)
  /-- `Dxyn` DRW Vx, Vy, n (43 R211). -/
  | drw (x y : Reg) (n : Nibble)
  /-- `Ex9E` SKP Vx (44 R230). -/
  | skpVx (x : Reg)
  /-- `ExA1` SKNP Vx (44 R231). -/
  | sknpVx (x : Reg)
  /-- `Fx07` LD Vx, DT (44 R233). -/
  | ldVxDt (x : Reg)
  /-- `Fx0A` LD Vx, K (44 R232). -/
  | ldVxK (x : Reg)
  /-- `Fx15` LD DT, Vx (44 R234). -/
  | ldDtVx (x : Reg)
  /-- `Fx18` LD ST, Vx (44 R235). -/
  | ldStVx (x : Reg)
  /-- `Fx1E` ADD I, Vx (42 R191). -/
  | addIVx (x : Reg)
  /-- `Fx29` LD F, Vx (42 R192). -/
  | ldFVx (x : Reg)
  /-- `Fx33` LD B, Vx (42 R193). -/
  | ldBVx (x : Reg)
  /-- `Fx55` LD [I], Vx (42 R194). -/
  | ldMemVx (x : Reg)
  /-- `Fx65` LD Vx, [I] (42 R195). -/
  | ldVxMem (x : Reg)
  deriving DecidableEq, Repr

end Sys2Proof
end

