-- ==== Sys2Proof/Decode.lean ====
section
/-! DEFINITION. The decoder, total on every 16-bit word and every list of bytes, and the encoder written from the
same table (30_encoding.md rules R100 to R107, R112). -/

namespace Sys2Proof

/-- Bits 15:12, the family (30 R101). -/
def opFam (op : Opcode) : Nibble := op.extractLsb' 12 4

/-- Bits 11:8 (30 R101). -/
def opX (op : Opcode) : Reg := op.extractLsb' 8 4

/-- Bits 7:4 (30 R101). -/
def opY (op : Opcode) : Reg := op.extractLsb' 4 4

/-- Bits 3:0 (30 R101). -/
def opN (op : Opcode) : Nibble := op.extractLsb' 0 4

/-- Bits 7:0 (30 R101). -/
def opKk (op : Opcode) : Byte := op.extractLsb' 0 8

/-- Bits 11:0 (30 R101). -/
def opNnn (op : Opcode) : Addr12 := op.extractLsb' 0 12

/-- The 35 outcomes of decoding a word (30 R112): one of the 34 instructions with its fields, or UNRECOGNISED. -/
inductive Decoded where
  | instr (i : Instr)
  /-- A word that matches no row (30 R107); it runs as the no-op of 40 R131. -/
  | unrecognised (op : Opcode)
  deriving DecidableEq, Repr

/-- Whether a family-0 word matches the pattern `w` (30 R105: in every digit, or on the low byte alone where
`DECODE_STRICT` is off, U6). -/
def matchesFix (strict : Bool) (op w : Opcode) : Bool :=
  if strict then op == w else opKk op == opKk w

/-- Whether the low nibble of a family-5 or family-9 word matches the printed 0 (30 R105; any nibble where
`DECODE_STRICT` is off, U6). -/
def matchesLow0 (strict : Bool) (op : Opcode) : Bool :=
  !strict || opN op == 0x0#4

/-- Second-level decode of family 0, the whole word (30 R105). -/
def decodeFam0 (strict : Bool) (op : Opcode) : Option Instr :=
  if matchesFix strict op 0x00E0#16 then some .cls
  else if matchesFix strict op 0x00EE#16 then some .ret
  else none

/-- Second-level decode of family 8, the low nibble (30 R105). -/
def decodeFam8 (op : Opcode) : Option Instr :=
  match opN op with
  | 0x0#4 => some (.ldVxVy (opX op) (opY op))
  | 0x1#4 => some (.orVxVy (opX op) (opY op))
  | 0x2#4 => some (.andVxVy (opX op) (opY op))
  | 0x3#4 => some (.xorVxVy (opX op) (opY op))
  | 0x4#4 => some (.addVxVy (opX op) (opY op))
  | 0x5#4 => some (.subVxVy (opX op) (opY op))
  | 0x6#4 => some (.shrVx (opX op) (opY op))
  | 0x7#4 => some (.subnVxVy (opX op) (opY op))
  | 0xE#4 => some (.shlVx (opX op) (opY op))
  | _ => none

/-- Second-level decode of family E, the low byte (30 R105). -/
def decodeFamE (op : Opcode) : Option Instr :=
  match opKk op with
  | 0x9E#8 => some (.skpVx (opX op))
  | 0xA1#8 => some (.sknpVx (opX op))
  | _ => none

/-- Second-level decode of family F, the low byte (30 R105). -/
def decodeFamF (op : Opcode) : Option Instr :=
  match opKk op with
  | 0x07#8 => some (.ldVxDt (opX op))
  | 0x0A#8 => some (.ldVxK (opX op))
  | 0x15#8 => some (.ldDtVx (opX op))
  | 0x18#8 => some (.ldStVx (opX op))
  | 0x1E#8 => some (.addIVx (opX op))
  | 0x29#8 => some (.ldFVx (opX op))
  | 0x33#8 => some (.ldBVx (opX op))
  | 0x55#8 => some (.ldMemVx (opX op))
  | 0x65#8 => some (.ldVxMem (opX op))
  | _ => none

/-- First-level decode on the top 4 bits (30 R104). -/
def decodeRow (strict : Bool) (op : Opcode) : Option Instr :=
  match opFam op with
  | 0x0#4 => decodeFam0 strict op
  | 0x1#4 => some (.jp (opNnn op))
  | 0x2#4 => some (.call (opNnn op))
  | 0x3#4 => some (.seVxKk (opX op) (opKk op))
  | 0x4#4 => some (.sneVxKk (opX op) (opKk op))
  | 0x5#4 => if matchesLow0 strict op then some (.seVxVy (opX op) (opY op)) else none
  | 0x6#4 => some (.ldVxKk (opX op) (opKk op))
  | 0x7#4 => some (.addVxKk (opX op) (opKk op))
  | 0x8#4 => decodeFam8 op
  | 0x9#4 => if matchesLow0 strict op then some (.sneVxVy (opX op) (opY op)) else none
  | 0xA#4 => some (.ldI (opNnn op))
  | 0xB#4 => some (.jpV0 (opNnn op))
  | 0xC#4 => some (.rndVxKk (opX op) (opKk op))
  | 0xD#4 => some (.drw (opX op) (opY op) (opN op))
  | 0xE#4 => decodeFamE op
  | _ => decodeFamF op

/-- Decode with `DECODE_STRICT` given, a total function of the word (30 R112). -/
def decodeWith (strict : Bool) (op : Opcode) : Decoded :=
  match decodeRow strict op with
  | some i => .instr i
  | none => .unrecognised op

/-- Decode, a total function of the word alone (30 R112): every printed digit must match (30 R105, D11). -/
def decode (op : Opcode) : Decoded := decodeWith Machine.Params.spec.decodeStrict op

/-- The two bytes of an instruction as one word: the byte at the lower address is the high half (20 R72). -/
def opcodeOfBytes (hi lo : Byte) : Opcode := hi ++ lo

/-- The high byte of an opcode, stored at the lower address (20 R72). -/
def opHi (op : Opcode) : Byte := op.extractLsb' 8 8

/-- The low byte of an opcode, stored at the higher address (20 R72). -/
def opLo (op : Opcode) : Byte := op.extractLsb' 0 8

/-- What decoding a list of bytes gives. -/
inductive BytesDecoded where
  /-- The first two bytes were one word; the rest of the list follows. -/
  | word (d : Decoded) (rest : List Byte)
  /-- Fewer than two bytes: there is no whole instruction (30 R100). -/
  | truncated
  deriving DecidableEq, Repr

/-- Decode the instruction at the head of a list of bytes: its length is always 2 (30 R100). -/
def decodeBytes : List Byte → BytesDecoded
  | hi :: lo :: rest => .word (decode (opcodeOfBytes hi lo)) rest
  | [_] => .truncated
  | [] => .truncated

/-- The instruction the decoder reads from the word whose bits spec/opcode_table.json numbers (bit 0 the least
significant bit of the one 16-bit word), laid out as the hardware stores it (20 R72). -/
def decodeTableWord (nbits w : Nat) : Option Instr :=
  let op : Opcode := BitVec.ofNat 16 (w % 2 ^ nbits)
  match decodeBytes [opHi op, opLo op] with
  | .word (.instr i) _ => some i
  | .word (.unrecognised _) _ => none
  | .truncated => none

/-- Format NNN (30 R102). -/
def encNnn (fam : Nibble) (nnn : Addr12) : Opcode := fam ++ nnn

/-- Format XKK (30 R102). -/
def encXkk (fam : Nibble) (x : Reg) (kk : Byte) : Opcode := (fam ++ x : BitVec 8) ++ kk

/-- Formats XYS and XYN (30 R102). -/
def encXyn (fam : Nibble) (x y : Reg) (n : Nibble) : Opcode := (fam ++ x : BitVec 8) ++ (y ++ n : BitVec 8)

/-- The word of an instruction (30 R102, R106). -/
def encode : Instr → Opcode
  | .cls => 0x00E0#16
  | .ret => 0x00EE#16
  | .jp nnn => encNnn 0x1#4 nnn
  | .call nnn => encNnn 0x2#4 nnn
  | .seVxKk x kk => encXkk 0x3#4 x kk
  | .sneVxKk x kk => encXkk 0x4#4 x kk
  | .seVxVy x y => encXyn 0x5#4 x y 0x0#4
  | .ldVxKk x kk => encXkk 0x6#4 x kk
  | .addVxKk x kk => encXkk 0x7#4 x kk
  | .ldVxVy x y => encXyn 0x8#4 x y 0x0#4
  | .orVxVy x y => encXyn 0x8#4 x y 0x1#4
  | .andVxVy x y => encXyn 0x8#4 x y 0x2#4
  | .xorVxVy x y => encXyn 0x8#4 x y 0x3#4
  | .addVxVy x y => encXyn 0x8#4 x y 0x4#4
  | .subVxVy x y => encXyn 0x8#4 x y 0x5#4
  | .shrVx x y => encXyn 0x8#4 x y 0x6#4
  | .subnVxVy x y => encXyn 0x8#4 x y 0x7#4
  | .shlVx x y => encXyn 0x8#4 x y 0xE#4
  | .sneVxVy x y => encXyn 0x9#4 x y 0x0#4
  | .ldI nnn => encNnn 0xA#4 nnn
  | .jpV0 nnn => encNnn 0xB#4 nnn
  | .rndVxKk x kk => encXkk 0xC#4 x kk
  | .drw x y n => encXyn 0xD#4 x y n
  | .skpVx x => encXkk 0xE#4 x 0x9E#8
  | .sknpVx x => encXkk 0xE#4 x 0xA1#8
  | .ldVxDt x => encXkk 0xF#4 x 0x07#8
  | .ldVxK x => encXkk 0xF#4 x 0x0A#8
  | .ldDtVx x => encXkk 0xF#4 x 0x15#8
  | .ldStVx x => encXkk 0xF#4 x 0x18#8
  | .addIVx x => encXkk 0xF#4 x 0x1E#8
  | .ldFVx x => encXkk 0xF#4 x 0x29#8
  | .ldBVx x => encXkk 0xF#4 x 0x33#8
  | .ldMemVx x => encXkk 0xF#4 x 0x55#8
  | .ldVxMem x => encXkk 0xF#4 x 0x65#8

/-- The bytes of an instruction in memory order (20 R72). -/
def encodeBytes (i : Instr) : List Byte := [opHi (encode i), opLo (encode i)]

/-- The mask column of the opcode map (30 R105, R106). -/
def Instr.mask : Instr → Opcode
  | .cls | .ret => 0xFFFF#16
  | .jp _ | .call _ | .seVxKk _ _ | .sneVxKk _ _ | .ldVxKk _ _ | .addVxKk _ _ | .ldI _ | .jpV0 _ | .rndVxKk _ _
  | .drw _ _ _ => 0xF000#16
  | .seVxVy _ _ | .ldVxVy _ _ | .orVxVy _ _ | .andVxVy _ _ | .xorVxVy _ _ | .addVxVy _ _ | .subVxVy _ _
  | .shrVx _ _ | .subnVxVy _ _ | .shlVx _ _ | .sneVxVy _ _ => 0xF00F#16
  | .skpVx _ | .sknpVx _ | .ldVxDt _ | .ldVxK _ | .ldDtVx _ | .ldStVx _ | .addIVx _ | .ldFVx _ | .ldBVx _
  | .ldMemVx _ | .ldVxMem _ => 0xF0FF#16

/-- The match column of the opcode map; it tells the 34 rows apart (30 R106). -/
def Instr.matchBits : Instr → Opcode
  | .cls => 0x00E0#16
  | .ret => 0x00EE#16
  | .jp _ => 0x1000#16
  | .call _ => 0x2000#16
  | .seVxKk _ _ => 0x3000#16
  | .sneVxKk _ _ => 0x4000#16
  | .seVxVy _ _ => 0x5000#16
  | .ldVxKk _ _ => 0x6000#16
  | .addVxKk _ _ => 0x7000#16
  | .ldVxVy _ _ => 0x8000#16
  | .orVxVy _ _ => 0x8001#16
  | .andVxVy _ _ => 0x8002#16
  | .xorVxVy _ _ => 0x8003#16
  | .addVxVy _ _ => 0x8004#16
  | .subVxVy _ _ => 0x8005#16
  | .shrVx _ _ => 0x8006#16
  | .subnVxVy _ _ => 0x8007#16
  | .shlVx _ _ => 0x800E#16
  | .sneVxVy _ _ => 0x9000#16
  | .ldI _ => 0xA000#16
  | .jpV0 _ => 0xB000#16
  | .rndVxKk _ _ => 0xC000#16
  | .drw _ _ _ => 0xD000#16
  | .skpVx _ => 0xE09E#16
  | .sknpVx _ => 0xE0A1#16
  | .ldVxDt _ => 0xF007#16
  | .ldVxK _ => 0xF00A#16
  | .ldDtVx _ => 0xF015#16
  | .ldStVx _ => 0xF018#16
  | .addIVx _ => 0xF01E#16
  | .ldFVx _ => 0xF029#16
  | .ldBVx _ => 0xF033#16
  | .ldMemVx _ => 0xF055#16
  | .ldVxMem _ => 0xF065#16

end Sys2Proof
end

