-- ==== Sys2Proof/Config.lean ====
section
/-! DEFINITION. What is fixed for the machine: the parameters of 00_scope.md rule R6, and the one free value,
the random byte of 10_state.md rule R44. The open parameters of 00_scope.md rule R7 stand in
`Sys2Proof.Machine.Params`. -/

namespace Sys2Proof.Config

/-- `MEM_SIZE`: number of 8-bit memory cells, addresses 0x000 to 0xFFF (00 R6). -/
abbrev memSize : Nat := 4096

/-- `FONT_BASE`: address of the first font byte (00 R6). -/
abbrev fontBase : Nat := 0x050

/-- `FONT_SIZE`: 16 glyphs of 5 bytes, addresses 0x050 to 0x09F (00 R6). -/
abbrev fontSize : Nat := 80

/-- `GLYPH_BYTES`: bytes per glyph (00 R6). -/
abbrev glyphBytes : Nat := 5

/-- `PROG_BASE`: load offset and reset value of the program counter (00 R6). -/
abbrev progBase : Nat := 0x200

/-- `PROG_MAX`: the largest program in bytes (00 R6). -/
abbrev progMax : Nat := 3584

/-- `STACK_DEPTH`: stack entries (00 R6). -/
abbrev stackDepth : Nat := 16

/-- `FB_W`: framebuffer width in pixels (00 R6). -/
abbrev fbW : Nat := 64

/-- `FB_H`: framebuffer height in pixels (00 R6). -/
abbrev fbH : Nat := 32

/-- `NKEYS`: keypad keys (00 R6). -/
abbrev nKeys : Nat := 16

/-- FREE VALUE (log entry 1): the random byte offered to the `k`-th executed `Cxkk`. The spec makes it an input
of the cycle, any byte, under no law (10 R44, 41 R171, D15, U8); nothing constrains this constant, so what is
proved holds for every sequence of bytes. -/
opaque rnd : Nat → Byte

end Sys2Proof.Config
end

