-- ==== Sys2Proof/Machine/State.lean ====
section
/-! DEFINITION. The state of the CHIP-8 CORE (10_state.md rule R45), the faults (60_exceptions.md rule R251) and the
state after reset (10_state.md rule R50). -/

namespace Sys2Proof.Machine

/-- Memory as the cells that differ from their reset contents: (address, byte) pairs, addresses strictly rising
(`Memory.wf` in Ops.lean). What an unlisted address reads as is `unlistedByte` in Ops.lean. -/
abbrev Memory := List Host.Cell

/-- `FB[cx][cy]`: 64 columns of 32 rows, indexed by column and then row (10 R38, D25). -/
abbrev Framebuffer := Vector (Vector Bool 32) 64

/-- The machine state: the spec's twelve elements (10 R45) and the model's own draw counter. -/
structure State where
  /-- `V[0..15]`, the general registers (10 R30). -/
  v     : Vector Byte 16
  /-- `I`, the index register, 16 bits (10 R32). -/
  i     : Word
  /-- `pc`, the program counter; at the start of a cycle the address of the instruction to fetch (10 R33). -/
  pc    : Word
  /-- `SP`, the number of stack entries in use; 5 bits, and the type holds exactly the legal values 0 to 16
  (10 R34, D5). -/
  sp    : Fin 17
  /-- `STK[0..15]`, the return addresses; not part of memory (10 R35). -/
  stk   : Vector Word 16
  /-- `DT`, the delay timer (10 R36). -/
  dt    : Byte
  /-- `ST`, the sound timer (10 R37). -/
  st    : Byte
  /-- `FB`, the framebuffer; not part of memory (10 R38). -/
  fb    : Framebuffer
  /-- `KEY[0..15]`, the keypad levels, true meaning pressed (10 R39). -/
  key   : Vector Bool 16
  /-- `RD`, the redraw signal (10 R40). -/
  rd    : Bool
  /-- `FAULT`, the fault latch, 3 bits, 0 meaning no fault (10 R41). -/
  fault : BitVec 3
  /-- `Mem[0x000..0xFFF]` (10 R42). -/
  mem   : Memory
  /-- The model's own: how many random bytes have been drawn; it numbers the free value `Config.rnd`
  (log entry 1). -/
  draws : Nat
  deriving DecidableEq, Repr

/-- The five faults (60 R251), each with the "info" its `raise` carries. They are raised inside a cycle and latched
in `State.fault`, so the cycle answers a next state (60 R252); no step of this model ends with `Outcome.fault`.
Each replaces behaviour the source leaves undefined (decision D2), so each is SAFE: the model stops where the
original went on in some unknown way. -/
inductive Fault where
  /-- Code 1, raised by the fetch of any cycle with `pc0 > 0xFFE` (D6). Safe. -/
  | fetchOutOfRange (pc0 : Word)
  /-- Code 2, raised by `2nnn` with `SP = 16` (D3). Safe. -/
  | stackOverflow (pc0 : Word)
  /-- Code 3, raised by `00EE` with `SP = 0` (D4). Safe. -/
  | stackUnderflow (pc0 : Word)
  /-- Code 4, raised by `Dxyn` with n >= 1, `Fx33`, `Fx55`, `Fx65` whose last byte address is above 0xFFF (D7).
  Safe. -/
  | dataAddressOutOfRange (i0 : Word)
  /-- Code 5, raised by `Ex9E` and `ExA1` with `vx > 15` (D8). Safe. -/
  | keyIndexOutOfRange (pc0 : Word)
  deriving DecidableEq, Repr

/-- Why a step could have no meaning. -/
inductive Refusal where
  /-- Raised only by an arm of `exec` whose instruction has no meaning yet. Safe: nothing is claimed of it.
  In this model no arm is left so. -/
  | notModelled (mnemonic : String)
  deriving DecidableEq, Repr

/-- What a meaning and a step answer. -/
abbrev Result := Host.Outcome State Fault Refusal

/-- The machine right after `reset`: "font loaded, PC set to program start, all other fields zeroed" (10 R50,
70 R280). The font is what the unlisted memory reads as. `draws` starts at 0 (DESIGN CHOICE, log entry 1). -/
def State.reset : State where
  v     := Vector.replicate 16 0#8
  i     := 0#16
  pc    := 0x200#16
  sp    := 0
  stk   := Vector.replicate 16 0#16
  dt    := 0#8
  st    := 0#8
  fb    := Vector.replicate 64 (Vector.replicate 32 false)
  key   := Vector.replicate 16 false
  rd    := false
  fault := 0#3
  mem   := []
  draws := 0

end Sys2Proof.Machine
end

