-- ==== Sys2Proof/Machine/Ops.lean ====
section
/-! DEFINITION. The named operations over memory, registers, program counter, stack, keypad and latch that every
meaning is written with. -/

namespace Sys2Proof.Machine

/-! ### Memory -/

/-- What an address reads as while nothing has been stored there: its reset contents, `FONT[0..79]` at 0x050 to
0x09F and 0 elsewhere (10 R50, R51; 20 R71). Another font (00 R7) is stored over these contents at reset:
`State.resetWith`. -/
def unlistedByte (a : Nat) : Byte :=
  if Config.fontBase ≤ a ∧ a < Config.fontBase + Config.fontSize then font.getD (a - Config.fontBase) 0#8 else 0#8

/-- The canonical form: addresses strictly rising and below 0x1000, no entry equal to what an unlisted address
reads as. -/
abbrev Memory.wf (m : Memory) : Prop :=
  m.Pairwise (fun p q => p.1 < q.1) ∧ ∀ c ∈ m, c.1 < Config.memSize ∧ c.2 ≠ unlistedByte c.1

/-- `Mem[a]` (20 R77: the last value written). -/
def memGet : Memory → Nat → Byte
  | [], a => unlistedByte a
  | (k, b) :: m, a => if a = k then b else memGet m a

/-- Insert a cell in its place by address. -/
def insertCell (a : Nat) (b : Byte) : Memory → Memory
  | [] => [(a, b)]
  | (k, c) :: m => if a < k then (a, b) :: (k, c) :: m else (k, c) :: insertCell a b m

/-- `Mem[a] <- b` (00 R12). There is no cell above 0xFFF, so nothing is stored there; the meanings raise the fault of
20 R75 before they reach it. Writing an address's reset contents unlists it, which keeps `Memory.wf`. -/
def memSet (m : Memory) (a : Nat) (b : Byte) : Memory :=
  if a < Config.memSize then
    let rest := m.filter (fun c => c.1 != a)
    if b = unlistedByte a then rest else insertCell a b rest
  else m

/-- Whether `n` bytes from address `a` all exist; sums over the integers, no wrap, and no byte is no access
(20 R75). -/
def spanExists (a n : Nat) : Bool := n == 0 || a + n - 1 ≤ 0xFFF

/-- Whether an access to `n` bytes from `a` goes on: by `MEM_OOR_POLICY` a span that does not exist faults, or every
span is taken (20 R75, 00 R7). -/
def spanAllowed (pol : MemPolicy) (a n : Nat) : Bool :=
  match pol with
  | .fault => spanExists a n
  | .wrap => true

/-- The cell an address names: itself, or its remainder where `MEM_OOR_POLICY` wraps (20 R78, 00 R7). -/
def cellAt (pol : MemPolicy) (a : Nat) : Nat :=
  match pol with
  | .fault => a
  | .wrap => a % Config.memSize

/-- Bytes stored at ascending addresses from `a`, each in the cell its address names (20 R73). -/
def memSetBytesWith (pol : MemPolicy) (m : Memory) (a : Nat) : List Byte → Memory
  | [] => m
  | b :: bs => memSetBytesWith pol (memSet m (cellAt pol a) b) (a + 1) bs

/-- Bytes stored at ascending addresses from `a` (20 R73). -/
def memSetBytes (m : Memory) (a : Nat) (bs : List Byte) : Memory := memSetBytesWith .fault m a bs

/-- `Mem[a]`, or nothing where no cell exists (00 R11, 20 R70). -/
def State.readByte (s : State) (a : Nat) : Option Byte :=
  if a < Config.memSize then some (memGet s.mem a) else none

/-- The `n` bytes in the cells that `a`, `a + 1`, ... name (20 R73). -/
def State.bytesAtWith (pol : MemPolicy) (s : State) (a n : Nat) : List Byte :=
  (List.range n).map fun k => memGet s.mem (cellAt pol (a + k))

/-- The `n` bytes at `a`, `a + 1`, ... (20 R73). -/
def State.bytesAt (s : State) (a n : Nat) : List Byte := s.bytesAtWith .fault a n

/-- Store bytes in the cells that ascending addresses from `a` name (00 R12, 20 R73). -/
def State.storeBytesWith (pol : MemPolicy) (s : State) (a : Nat) (bs : List Byte) : State :=
  { s with mem := memSetBytesWith pol s.mem a bs }

/-- Store bytes at ascending addresses from `a` (00 R12, 20 R73). -/
def State.storeBytes (s : State) (a : Nat) (bs : List Byte) : State := s.storeBytesWith .fault a bs

/-! ### Registers -/

/-- `V[x]` (10 R30). -/
def State.reg (s : State) (x : Reg) : Byte := s.v[x.toNat]

/-- `V[x] <- b` (10 R30). -/
def State.setReg (s : State) (x : Reg) (b : Byte) : State := { s with v := s.v.set x.toNat b }

/-- `I <- w` (10 R32). -/
def State.setI (s : State) (w : Word) : State := { s with i := w }

/-! ### Program counter -/

/-- `pc <- w`, the overwriting form (40 R130). -/
def State.jump (s : State) (w : Word) : State := { s with pc := w }

/-- `npc = (pc0 + 2) mod 2^16` (00 R14). -/
def State.npc (s : State) : Word := s.pc + 2#16

/-- `pc <- npc` (40 R130 step 2). -/
def State.advance (s : State) : State := s.jump s.npc

/-- The skip rule: 2 more than the already advanced pc when the condition holds (40 R140). -/
def State.skipIf (s : State) (c : Bool) : State :=
  if c then s.jump (s.npc + 2#16) else s.advance

/-! ### Stack -/

/-- The pointer after entry `k` is pushed: `k + 1` in `SP_BITS` bits (10 R34). -/
def spAfterPush (p : Params) (k : Fin 16) : Fin 17 :=
  ⟨(k.val + 1) % 2 ^ p.spBits, Nat.lt_of_le_of_lt (Nat.mod_le _ _) (Nat.succ_lt_succ k.isLt)⟩

/-- The entry a push writes: the one the pointer names, or none when all 16 are in use; where `STACK_POLICY` wraps
there is always one (40 R134, 00 R7, D3). -/
def pushEntry (p : Params) (sp : Fin 17) : Option (Fin 16) :=
  if h : sp.val < Config.stackDepth then some ⟨sp.val, h⟩
  else
    match p.stackPolicy with
    | .fault => none
    | .wrap => some 0

/-- The entry a pop reads: the last one in use, or none when there is none; where `STACK_POLICY` wraps the pointer
goes round from 0 to the last entry `SP_BITS` bits reach (40 R132, 00 R7, D4). -/
def popEntry (p : Params) (sp : Fin 17) : Option (Fin 16) :=
  if sp.val = 0 then
    match p.stackPolicy with
    | .fault => none
    | .wrap => some (Fin.ofNat 16 (min Config.stackDepth (2 ^ p.spBits) - 1))
  else some ⟨sp.val - 1, by have := sp.isLt; omega⟩

/-- Push then increment (10 R35, 40 R134), or nothing when there is no entry to write. -/
def State.push (p : Params) (s : State) (w : Word) : Option State :=
  match pushEntry p s.sp with
  | none => none
  | some k => some { s with stk := s.stk.set k.val w, sp := spAfterPush p k }

/-- Decrement then pop (10 R35, 40 R132), or nothing when there is no entry to read: the popped value and the state
with the pointer moved. The entry keeps its value (D30). -/
def State.pop (p : Params) (s : State) : Option (Word × State) :=
  match popEntry p s.sp with
  | none => none
  | some k => some (s.stk[k.val], { s with sp := k.castSucc })

/-! ### Keypad -/

/-- The indices of the pressed keys, in index order: the set `P` of 44 R232. -/
def State.pressedKeys (s : State) : List (Fin 16) :=
  (List.finRange 16).filter fun k => s.key[k.val]

/-- The key `Fx0A` reports, if any key is down (44 R232, `KEYWAIT_PICK`). -/
def State.keyHit (pick : KeyPick) (s : State) : Option (Fin 16) :=
  match pick with
  | .lowest => s.pressedKeys.head?
  | .highest => s.pressedKeys.getLast?
  | .nth k => s.pressedKeys[k % s.pressedKeys.length]?

/-! ### Faults -/

/-- The code a fault latches (60 R251). -/
def Fault.code : Fault → BitVec 3
  | .fetchOutOfRange _ => 1#3
  | .stackOverflow _ => 2#3
  | .stackUnderflow _ => 3#3
  | .dataAddressOutOfRange _ => 4#3
  | .keyIndexOutOfRange _ => 5#3

/-- `raise f`: the cycle that raises a fault changes nothing except `FAULT <- code` (00 R13, 60 R252). Called on the
state at the start of the cycle, so `pc` stays at `pc0`; the hardware records only the code. -/
def raise (f : Fault) (s : State) : Result := .next { s with fault := f.code }

/-! ### Fetch -/

/-- `MemRead(pc0, 2)`, big-endian, or nothing where the two bytes do not both exist and `MEM_OOR_POLICY` faults
(00 R11, 20 R72, R75). -/
def State.fetchWith (pol : MemPolicy) (s : State) : Option Opcode :=
  if spanAllowed pol s.pc.toNat 2 then
    some (opcodeOfBytes (memGet s.mem (cellAt pol s.pc.toNat)) (memGet s.mem (cellAt pol (s.pc.toNat + 1))))
  else none

/-- `MemRead(pc0, 2)`, or nothing when `pc0 > 0xFFE` (20 R75). -/
def State.fetch (s : State) : Option Opcode := s.fetchWith Params.spec.memPolicy

/-- The word the bytes at the program counter hold, decoded (40 R130). -/
def State.fetchedWith (p : Params) (s : State) : Option Decoded :=
  (s.fetchWith p.memPolicy).map (decodeWith p.decodeStrict)

/-- What a cycle runs (40 R130). -/
def State.fetched (s : State) : Option Decoded := s.fetchedWith Params.spec

/-- Store an instruction's two bytes where the next cycle fetches them (20 R72). -/
def State.placeOpcode (s : State) (op : Opcode) : State :=
  s.storeBytes s.pc.toNat [opHi op, opLo op]

end Sys2Proof.Machine
end

