-- ==== Sys2Proof/Machine/Flags.lean ====
section
/-! DEFINITION. Every flag computation of the spec (10_state.md rule R52) and the one operation that writes a result
and a flag (41_load_and_alu.md rule R173). Each flag is computed over the integers from the operands as they stood
at the start of the cycle (00_scope.md rule R14). -/

namespace Sys2Proof.Machine

/-- The value written to VF: exactly 0 or 1 (10 R31). -/
def flagByte (c : Bool) : Byte := if c then 1#8 else 0#8

/-- `8xy4`: `vx + vy > 255` before truncation (41 R166). -/
def carryOut (a b : Byte) : Bool := decide (a.toNat + b.toNat > 255)

/-- `8xy5` and, with the operands exchanged, `8xy7`: strictly greater (41 R167, R169; C3). -/
def strictlyAbove (a b : Byte) : Bool := decide (a.toNat > b.toNat)

/-- `8xy6`: bit 0 before the shift (41 R168). -/
def lowBit (a : Byte) : Bool := a.getLsbD 0

/-- `8xyE`: bit 7 before the shift (41 R170). -/
def highBit (a : Byte) : Bool := a.getLsbD 7

/-- `Fx1E`: `i0 + vx > 0xFFF`, before the 16-bit reduction (42 R191). -/
def passesMemory (i : Word) (b : Byte) : Bool := decide (i.toNat + b.toNat > 0xFFF)

/-- `V[0xF] <- 1 if c else 0` (10 R31). -/
def State.setFlag (s : State) (c : Bool) : State := s.setReg VF (flagByte c)

/-- The two writes of a flag-writing ALU instruction, in the order `VF_PRIORITY` gives; at the spec's
value the flag lands last, so with `x = F` the flag wins (41 R173, 00 R7). -/
def State.setResultAndFlag (pr : VfPriority) (s : State) (x : Reg) (r : Byte) (c : Bool) : State :=
  match pr with
  | .flag => (s.setReg x r).setFlag c
  | .result => (s.setFlag c).setReg x r

end Sys2Proof.Machine
end

