-- ==== Sys2Proof/Machine/Alu.lean ====
section
/-! DEFINITION. Register load, arithmetic and logic (41_load_and_alu.md). Every instruction ends with `pc = npc`. -/

namespace Sys2Proof.Machine

/-- `6xkk` LD Vx, kk (41 R160). -/
def execLdVxKk (x : Reg) (kk : Byte) (s : State) : Result := .next (s.advance.setReg x kk)

/-- `7xkk` ADD Vx, kk: wraps, writes no flag (41 R161). -/
def execAddVxKk (x : Reg) (kk : Byte) (s : State) : Result := .next (s.advance.setReg x (s.reg x + kk))

/-- `8xy0` LD Vx, Vy (41 R162). -/
def execLdVxVy (x y : Reg) (s : State) : Result := .next (s.advance.setReg x (s.reg y))

/-- `8xy1` OR Vx, Vy: VF left as it is (41 R163). -/
def execOrVxVy (x y : Reg) (s : State) : Result := .next (s.advance.setReg x (s.reg x ||| s.reg y))

/-- `8xy2` AND Vx, Vy: VF left as it is (41 R164). -/
def execAndVxVy (x y : Reg) (s : State) : Result := .next (s.advance.setReg x (s.reg x &&& s.reg y))

/-- `8xy3` XOR Vx, Vy: VF left as it is (41 R165). -/
def execXorVxVy (x y : Reg) (s : State) : Result := .next (s.advance.setReg x (s.reg x ^^^ s.reg y))

/-- `8xy4` ADD Vx, Vy with the parameters given: VF is the carry (41 R166). -/
def execAddVxVyWith (p : Params) (x y : Reg) (s : State) : Result :=
  .next (s.advance.setResultAndFlag p.vfPriority x (s.reg x + s.reg y) (carryOut (s.reg x) (s.reg y)))

/-- `8xy4` ADD Vx, Vy: the flag lands last (41 R166, R173). -/
def execAddVxVy (x y : Reg) (s : State) : Result := execAddVxVyWith Params.spec x y s

/-- `8xy5` SUB Vx, Vy with the parameters given: VF is 1 iff `vx > vy`, strictly (41 R167, C3). -/
def execSubVxVyWith (p : Params) (x y : Reg) (s : State) : Result :=
  .next (s.advance.setResultAndFlag p.vfPriority x (s.reg x - s.reg y) (strictlyAbove (s.reg x) (s.reg y)))

/-- `8xy5` SUB Vx, Vy: the flag lands last (41 R167, R173). -/
def execSubVxVy (x y : Reg) (s : State) : Result := execSubVxVyWith Params.spec x y s

/-- `8xy6` SHR Vx with the parameters given: logical, in place; `y` is ignored (41 R168, 30 R113). -/
def execShrVxWith (p : Params) (x _y : Reg) (s : State) : Result :=
  .next (s.advance.setResultAndFlag p.vfPriority x (s.reg x >>> 1) (lowBit (s.reg x)))

/-- `8xy6` SHR Vx: the flag lands last (41 R168, R173). -/
def execShrVx (x y : Reg) (s : State) : Result := execShrVxWith Params.spec x y s

/-- `8xy7` SUBN Vx, Vy with the parameters given: VF is 1 iff `vy > vx`, strictly (41 R169, C3, D26). -/
def execSubnVxVyWith (p : Params) (x y : Reg) (s : State) : Result :=
  .next (s.advance.setResultAndFlag p.vfPriority x (s.reg y - s.reg x) (strictlyAbove (s.reg y) (s.reg x)))

/-- `8xy7` SUBN Vx, Vy: the flag lands last (41 R169, R173). -/
def execSubnVxVy (x y : Reg) (s : State) : Result := execSubnVxVyWith Params.spec x y s

/-- `8xyE` SHL Vx with the parameters given: in place; `y` is ignored (41 R170, 30 R113). -/
def execShlVxWith (p : Params) (x _y : Reg) (s : State) : Result :=
  .next (s.advance.setResultAndFlag p.vfPriority x (s.reg x <<< 1) (highBit (s.reg x)))

/-- `8xyE` SHL Vx: the flag lands last (41 R170, R173). -/
def execShlVx (x y : Reg) (s : State) : Result := execShlVxWith Params.spec x y s

/-- `Cxkk` with the cycle's random byte given: `V[x] <- rnd AND kk` (41 R171). -/
def rndWith (rnd : Byte) (x : Reg) (kk : Byte) (s : State) : Result :=
  .next { s.advance.setReg x (rnd &&& kk) with draws := s.draws + 1 }

/-- `Cxkk` RND Vx, kk: the random byte is the free value `Config.rnd`, a fresh one each time (41 R171, 10 R44,
log entry 1). -/
def execRndVxKk (x : Reg) (kk : Byte) (s : State) : Result := rndWith (Config.rnd s.draws) x kk s

end Sys2Proof.Machine
end

