-- ==== Sys2Proof/Machine/Operands.lean ====
section
/-! DEFINITION. The operand forms: the zero-extended address field, the address of a data access, the
decimal digits, and the blocks of registers moved to and from memory (42_index_and_memory.md rule R196). -/

namespace Sys2Proof.Machine

/-- `zext_16(nnn)` (30 R103). -/
def zext16 (nnn : Addr12) : Word := nnn.setWidth 16

/-- The target of `Bnnn`, `nnn + V[0]` in 16 bits, not masked to 12 (40 R139, D28). -/
def indexedTarget (s : State) (nnn : Addr12) : Word := zext16 nnn + (s.reg 0x0#4).setWidth 16

/-- The address of a data access: `I` at the start of the cycle (42 R196). -/
def State.dataAddr (s : State) : Nat := s.i.toNat

/-- How many registers `Fx55` and `Fx65` move: `x + 1` (42 R194, R195). -/
def blockLen (x : Reg) : Nat := x.toNat + 1

/-- `V[0] .. V[x]`, the bytes `Fx55` stores (42 R194). -/
def State.regBlock (s : State) (x : Reg) : List Byte := s.v.toList.take (blockLen x)

/-- The registers with `V[k] <- Mem[a + k]` for `k` in 0 to `x` (42 R195). -/
def State.loadBlock (pol : MemPolicy) (s : State) (x : Reg) (a : Nat) : State :=
  { s with v := Vector.ofFn fun k : Fin 16 =>
      if k.val ≤ x.toNat then memGet s.mem (cellAt pol (a + k.val)) else s.v[k.val] }

/-- `I` after `Fx55` and `Fx65`: `(i0 + x + 1) mod 2^16` (42 R194, R195). -/
def State.iPastBlock (s : State) (x : Reg) : Word := s.i + BitVec.ofNat 16 (blockLen x)

/-- Hundreds, tens and ones of a byte, one digit a byte (42 R193). -/
def bcdDigits (b : Byte) : List Byte :=
  [BitVec.ofNat 8 (b.toNat / 100), BitVec.ofNat 8 (b.toNat / 10 % 10), BitVec.ofNat 8 (b.toNat % 10)]

/-- The address of the glyph for `b`: `0x050 + 5 * vx`, the whole byte, no mask (42 R192). -/
def glyphAddr (b : Byte) : Word := BitVec.ofNat 16 (Config.fontBase + Config.glyphBytes * b.toNat)

end Sys2Proof.Machine
end

