-- ==== Sys2Proof/Machine/Control.lean ====
section
/-! DEFINITION. Control transfer (40_cycle_and_control.md). Every meaning takes the state at the start of the cycle
(`pc = pc0`, operands latched, 00_scope.md rule R14). A meaning that depends on a parameter of 00_scope.md rule R7 is
`execXWith`, which takes the parameters, and `execX` is it at the spec's values. -/

namespace Sys2Proof.Machine

/-- A word of no row: nothing after `pc <- npc` (40 R131, 30 R107). -/
def execUnrecognised (s : State) : Result := .next s.advance

/-- `00EE` RET with the parameters given (40 R132, 00 R7). -/
def execRetWith (p : Params) (s : State) : Result :=
  match s.pop p with
  | none => raise (.stackUnderflow s.pc) s
  | some (w, s') => .next (s'.jump w)

/-- `00EE` RET (40 R132). -/
def execRet (s : State) : Result := execRetWith Params.spec s

/-- `1nnn` JP nnn (40 R133). -/
def execJp (nnn : Addr12) (s : State) : Result := .next (s.jump (zext16 nnn))

/-- `2nnn` CALL nnn with the parameters given: pushes the advanced pc (40 R134, 00 R7). -/
def execCallWith (p : Params) (nnn : Addr12) (s : State) : Result :=
  match s.push p s.npc with
  | none => raise (.stackOverflow s.pc) s
  | some s' => .next (s'.jump (zext16 nnn))

/-- `2nnn` CALL nnn (40 R134). -/
def execCall (nnn : Addr12) (s : State) : Result := execCallWith Params.spec nnn s

/-- `3xkk` SE Vx, kk (40 R135). -/
def execSeVxKk (x : Reg) (kk : Byte) (s : State) : Result := .next (s.skipIf (s.reg x == kk))

/-- `4xkk` SNE Vx, kk (40 R136). -/
def execSneVxKk (x : Reg) (kk : Byte) (s : State) : Result := .next (s.skipIf (s.reg x != kk))

/-- `5xy0` SE Vx, Vy (40 R137). -/
def execSeVxVy (x y : Reg) (s : State) : Result := .next (s.skipIf (s.reg x == s.reg y))

/-- `9xy0` SNE Vx, Vy (40 R138). -/
def execSneVxVy (x y : Reg) (s : State) : Result := .next (s.skipIf (s.reg x != s.reg y))

/-- `Bnnn` JP V0, nnn (40 R139). -/
def execJpV0 (nnn : Addr12) (s : State) : Result := .next (s.jump (indexedTarget s nnn))

end Sys2Proof.Machine
end

