-- ==== Sys2Proof/Machine/Display.lean ====
section
/-! DEFINITION. The display instructions, the collision detector and the pixel writer (43_display.md). -/

namespace Sys2Proof.Machine

/-- `FB[cx][cy]`, both coordinates wrapping (43 R214). -/
def Framebuffer.pixel (fb : Framebuffer) (cx cy : Nat) : Bool :=
  (fb[cx % 64]'(Nat.mod_lt _ (by decide)))[cy % 32]'(Nat.mod_lt _ (by decide))

/-- `FB[cx][cy] <- not FB[cx][cy]`, both coordinates wrapping (43 R211, R214). -/
def Framebuffer.toggle (fb : Framebuffer) (cx cy : Nat) : Framebuffer :=
  have hx : cx % 64 < 64 := Nat.mod_lt _ (by decide)
  have hy : cy % 32 < 32 := Nat.mod_lt _ (by decide)
  fb.set (cx % 64) (fb[cx % 64].set (cy % 32) (!fb[cx % 64][cy % 32]))

/-- The framebuffer and the `coll` bit while a sprite is drawn (43 R211, R212). -/
structure Canvas where
  fb : Framebuffer
  coll : Bool
  deriving DecidableEq, Repr

/-- One toggle: `coll` becomes 1 when the pixel was on, and never returns to 0 (43 R212). -/
def Canvas.plot (cv : Canvas) (cx cy : Nat) : Canvas :=
  { fb := cv.fb.toggle cx cy, coll := cv.coll || cv.fb.pixel cx cy }

/-- The sprite bit of column `c`: bit 7 is column 0 where `SPRITE_MSB_LEFT` is on (43 R213, 00 R7). -/
def spriteBit (msbLeft : Bool) (b : Byte) (c : Nat) : Bool :=
  if msbLeft then b.getLsbD (7 - c) else b.getLsbD c

/-- The eight columns of one sprite row drawn at column `cx`, row `cy`; only 1 bits take part (43 R211, R212). -/
def Canvas.plotRow (msbLeft : Bool) (cv : Canvas) (cx cy : Nat) (b : Byte) : Canvas :=
  (List.range 8).foldl (fun cv c => if spriteBit msbLeft b c then cv.plot (cx + c) cy else cv) cv

/-- The rows of a sprite, top row first, from row `cy` down (43 R211). -/
def Canvas.plotRows (msbLeft : Bool) (cv : Canvas) (cx cy : Nat) : List Byte → Canvas
  | [] => cv
  | b :: bs => (cv.plotRow msbLeft cx cy b).plotRows msbLeft cx (cy + 1) bs

/-- `00E0` CLS: every pixel off, redraw raised, VF not written (43 R210). -/
def execCls (s : State) : Result :=
  .next { s.advance with fb := Vector.replicate 64 (Vector.replicate 32 false), rd := true }

/-- `Dxyn` DRW Vx, Vy, n with the parameters given: the coordinates are the registers at the start of the cycle; VF
is the collision; redraw is raised; `n = 0` reads nothing and never faults (43 R211 to R215, D9, 00 R7). -/
def execDrwWith (p : Params) (x y : Reg) (n : Nibble) (s : State) : Result :=
  if spanAllowed p.memPolicy s.dataAddr n.toNat then
    let cv := (Canvas.mk s.fb false).plotRows p.spriteMsbLeft (s.reg x).toNat (s.reg y).toNat
      (s.bytesAtWith p.memPolicy s.dataAddr n.toNat)
    .next ({ s.advance with fb := cv.fb, rd := true }.setFlag cv.coll)
  else raise (.dataAddressOutOfRange s.i) s

/-- `Dxyn` DRW Vx, Vy, n (43 R211). -/
def execDrw (x y : Reg) (n : Nibble) (s : State) : Result := execDrwWith Params.spec x y n s

end Sys2Proof.Machine
end

