-- ==== Sys2Proof/Machine/Index.lean ====
section
/-! DEFINITION. The index register and the memory instructions (42_index_and_memory.md). Every instruction ends with
`pc = npc`. -/

namespace Sys2Proof.Machine

/-- `Annn` LD I, nnn (42 R190). -/
def execLdI (nnn : Addr12) (s : State) : Result := .next (s.advance.setI (zext16 nnn))

/-- `Fx1E` ADD I, Vx: VF is 1 iff the sum passes 0xFFF; `I` is reduced to 16 bits only (42 R191, D16, D26). -/
def execAddIVx (x : Reg) (s : State) : Result :=
  .next ((s.advance.setI (s.i + (s.reg x).setWidth 16)).setFlag (passesMemory s.i (s.reg x)))

/-- `Fx29` LD F, Vx (42 R192). -/
def execLdFVx (x : Reg) (s : State) : Result := .next (s.advance.setI (glyphAddr (s.reg x)))

/-- `Fx33` LD B, Vx with the parameters given: three digits at `I`; `I` is not changed (42 R193, 00 R7). -/
def execLdBVxWith (p : Params) (x : Reg) (s : State) : Result :=
  if spanAllowed p.memPolicy s.dataAddr 3 then
    .next (s.advance.storeBytesWith p.memPolicy s.dataAddr (bcdDigits (s.reg x)))
  else raise (.dataAddressOutOfRange s.i) s

/-- `Fx33` LD B, Vx (42 R193). -/
def execLdBVx (x : Reg) (s : State) : Result := execLdBVxWith Params.spec x s

/-- `Fx55` LD [I], Vx with the parameters given: stores `V[0]` to `V[x]`; `I` advances by `x + 1` (42 R194,
00 R7). -/
def execLdMemVxWith (p : Params) (x : Reg) (s : State) : Result :=
  if spanAllowed p.memPolicy s.dataAddr (blockLen x) then
    .next ((s.advance.storeBytesWith p.memPolicy s.dataAddr (s.regBlock x)).setI (s.iPastBlock x))
  else raise (.dataAddressOutOfRange s.i) s

/-- `Fx55` LD [I], Vx (42 R194). -/
def execLdMemVx (x : Reg) (s : State) : Result := execLdMemVxWith Params.spec x s

/-- `Fx65` LD Vx, [I] with the parameters given: loads `V[0]` to `V[x]`; `I` advances by `x + 1` (42 R195,
00 R7). -/
def execLdVxMemWith (p : Params) (x : Reg) (s : State) : Result :=
  if spanAllowed p.memPolicy s.dataAddr (blockLen x) then
    .next ((s.advance.loadBlock p.memPolicy x s.dataAddr).setI (s.iPastBlock x))
  else raise (.dataAddressOutOfRange s.i) s

/-- `Fx65` LD Vx, [I] (42 R195). -/
def execLdVxMem (x : Reg) (s : State) : Result := execLdVxMemWith Params.spec x s

end Sys2Proof.Machine
end

