-- ==== Sys2Proof/Machine/Keypad.lean ====
section
/-! DEFINITION. The keypad and timer instructions (44_keypad_and_timers.md). The keypad is read as the levels stand
when the cycle runs (10_state.md rule R39). -/

namespace Sys2Proof.Machine

/-- `KEY[vx]`; when `vx > 15` nothing, or the masked key, as `KEY_OOR_POLICY` says (44 R230, R231; 00 R7). -/
def State.keyAt (pol : KeyPolicy) (s : State) (b : Byte) : Option Bool :=
  if h : b.toNat < 16 then some s.key[b.toNat]
  else
    match pol with
    | .fault => none
    | .mask => some (s.key[b.toNat % 16]'(Nat.mod_lt _ (by decide)))

/-- `Ex9E` SKP Vx with the parameters given (44 R230, 00 R7). -/
def execSkpVxWith (p : Params) (x : Reg) (s : State) : Result :=
  match s.keyAt p.keyPolicy (s.reg x) with
  | none => raise (.keyIndexOutOfRange s.pc) s
  | some down => .next (s.skipIf down)

/-- `Ex9E` SKP Vx (44 R230). -/
def execSkpVx (x : Reg) (s : State) : Result := execSkpVxWith Params.spec x s

/-- `ExA1` SKNP Vx with the parameters given (44 R231, 00 R7). -/
def execSknpVxWith (p : Params) (x : Reg) (s : State) : Result :=
  match s.keyAt p.keyPolicy (s.reg x) with
  | none => raise (.keyIndexOutOfRange s.pc) s
  | some down => .next (s.skipIf (!down))

/-- `ExA1` SKNP Vx (44 R231). -/
def execSknpVx (x : Reg) (s : State) : Result := execSknpVxWith Params.spec x s

/-- `Fx0A` LD Vx, K with the parameters given: with no key down the cycle changes nothing and runs again (44 R232,
00 R7). -/
def execLdVxKWith (p : Params) (x : Reg) (s : State) : Result :=
  match s.keyHit p.keyWaitPick with
  | none => .next s
  | some k => .next (s.advance.setReg x (BitVec.ofNat 8 k.val))

/-- `Fx0A` LD Vx, K (44 R232). -/
def execLdVxK (x : Reg) (s : State) : Result := execLdVxKWith Params.spec x s

/-- `Fx07` LD Vx, DT (44 R233). -/
def execLdVxDt (x : Reg) (s : State) : Result := .next (s.advance.setReg x s.dt)

/-- `Fx15` LD DT, Vx (44 R234). -/
def execLdDtVx (x : Reg) (s : State) : Result := .next { s.advance with dt := s.reg x }

/-- `Fx18` LD ST, Vx (44 R235). -/
def execLdStVx (x : Reg) (s : State) : Result := .next { s.advance with st := s.reg x }

end Sys2Proof.Machine
end

