-- ==== Sys2Proof/Machine/Step.lean ====
section
/-! DEFINITION. One `cycle` transaction (40_cycle_and_control.md rule R130). -/

namespace Sys2Proof.Machine

/-- One cycle: nothing while `FAULT != 0`, else fetch, decode and run one instruction (40 R130, 60 R252). The
advance of pc is part of each meaning, which is given the state at the start of the cycle. -/
def step (s : State) : Host.Outcome State Fault Refusal :=
  if s.fault = 0#3 then
    match s.fetched with
    | none => raise (.fetchOutOfRange s.pc) s
    | some (.instr i) => exec i s
    | some (.unrecognised _) => execUnrecognised s
  else .next s

/-- `s` with the instruction whose bits are `w` placed where the next cycle fetches it (log entry 10). -/
def State.withFetchWord (s : State) (nbits w : Nat) : State :=
  s.placeOpcode (BitVec.ofNat 16 (w % 2 ^ nbits))

end Sys2Proof.Machine
end

