-- ==== Sys2Proof/Machine/Parametric.lean ====
section
/-! DEFINITION. The machine with the open parameters of 00_scope.md rule R7 as arguments: the record `p` and the
random byte `rnd` the cycle is given (10_state.md rule R44). The machine of Step.lean is this one at `Params.spec` and
the free byte `Config.rnd` (log entry 16). -/

namespace Sys2Proof.Machine

/-- The meaning of an instruction at the parameters `p` with the random byte `rnd` (00 R7). -/
def execWith (p : Params) (rnd : Byte) (i : Instr) (s : State) : Result :=
  match i with
  | .cls => execCls s
  | .ret => execRetWith p s
  | .jp nnn => execJp nnn s
  | .call nnn => execCallWith p nnn s
  | .seVxKk x kk => execSeVxKk x kk s
  | .sneVxKk x kk => execSneVxKk x kk s
  | .seVxVy x y => execSeVxVy x y s
  | .ldVxKk x kk => execLdVxKk x kk s
  | .addVxKk x kk => execAddVxKk x kk s
  | .ldVxVy x y => execLdVxVy x y s
  | .orVxVy x y => execOrVxVy x y s
  | .andVxVy x y => execAndVxVy x y s
  | .xorVxVy x y => execXorVxVy x y s
  | .addVxVy x y => execAddVxVyWith p x y s
  | .subVxVy x y => execSubVxVyWith p x y s
  | .shrVx x y => execShrVxWith p x y s
  | .subnVxVy x y => execSubnVxVyWith p x y s
  | .shlVx x y => execShlVxWith p x y s
  | .sneVxVy x y => execSneVxVy x y s
  | .ldI nnn => execLdI nnn s
  | .jpV0 nnn => execJpV0 nnn s
  | .rndVxKk x kk => rndWith rnd x kk s
  | .drw x y n => execDrwWith p x y n s
  | .skpVx x => execSkpVxWith p x s
  | .sknpVx x => execSknpVxWith p x s
  | .ldVxDt x => execLdVxDt x s
  | .ldVxK x => execLdVxKWith p x s
  | .ldDtVx x => execLdDtVx x s
  | .ldStVx x => execLdStVx x s
  | .addIVx x => execAddIVx x s
  | .ldFVx x => execLdFVx x s
  | .ldBVx x => execLdBVxWith p x s
  | .ldMemVx x => execLdMemVxWith p x s
  | .ldVxMem x => execLdVxMemWith p x s

/-- `cycle(rnd)` at the parameters `p` (40 R130, 60 R252, 00 R7). -/
def stepWith (p : Params) (rnd : Byte) (s : State) : Result :=
  if s.fault = 0#3 then
    match s.fetchedWith p with
    | none => raise (.fetchOutOfRange s.pc) s
    | some (.instr i) => execWith p rnd i s
    | some (.unrecognised _) => execUnrecognised s
  else .next s

/-- The machine right after `reset` at the parameters `p`: `FONT[0..79]` copied to 0x050 upward (10 R43, R50). -/
def State.resetWith (p : Params) : State := State.reset.storeBytes Config.fontBase p.font

end Sys2Proof.Machine
end

