-- ==== Sys2Proof/Machine/Transactions.lean ====
section
/-! DEFINITION. The host's transactions and the machine with its host (60_exceptions.md rule R268). `step` is the
`cycle` transaction; the others are functions of the state, and `transact` says which of them is legal when;
`transactWith` is the same at any parameters of 00_scope.md rule R7. A run
is any list of transactions, so every interleaving of cycles, ticks and key changes is covered (20_memory.md rules
R76, R84; 60_exceptions.md rules R259, R261). -/

namespace Sys2Proof.Machine

/-- One timer in one tick: decremented when nonzero, never below 0 (60 R259, 10 R36). -/
def countDown (b : Byte) : Byte := if b.toNat > 0 then b - 1#8 else b

/-- `tick` (60 R259). -/
def State.tick (s : State) : State := { s with dt := countDown s.dt, st := countDown s.st }

/-- `set_key(i, b)` (60 R261). -/
def State.setKey (s : State) (i : Fin 16) (b : Bool) : State := { s with key := s.key.set i.val b }

/-- `clear_redraw` (60 R262). -/
def State.clearRedraw (s : State) : State := { s with rd := false }

/-- `reset`: every element to its value in the reset state `r` (70 R280). The model's draw counter goes on, so that
the bytes drawn after a reset are fresh ones (log entry 1). -/
def State.resetTo (r s : State) : State := { r with draws := s.draws }

/-- `load(bytes)`: the program copied to 0x200 upward, or nothing when it is over 3584 bytes, which the host hears as
`ProgramTooLarge` (20 R85). -/
def State.load (s : State) (bytes : List Byte) : Option State :=
  if bytes.length > Config.progMax then none else some (s.storeBytes Config.progBase bytes)

/-- What the host may observe: the framebuffer, the redraw signal, `ST != 0` and the fault latch (60 R262, R263,
R268). -/
structure Observation where
  fb : Framebuffer
  redraw : Bool
  sound : Bool
  fault : BitVec 3
  deriving DecidableEq, Repr

/-- The read-only observations of a state (60 R268). -/
def State.observe (s : State) : Observation :=
  { fb := s.fb, redraw := s.rd, sound := s.st != 0#8, fault := s.fault }

/-- How far the boot sequence has come, which is what decides whether `load` is legal (70 R282). -/
inductive Phase where
  /-- After `reset`, before any `load` or cycle. -/
  | fresh
  /-- After the one successful `load`, before any cycle. -/
  | loaded
  /-- A cycle has been started since `reset`. -/
  | running
  deriving DecidableEq, Repr

/-- The core together with what the host's side must remember of it. -/
structure System where
  core : State
  phase : Phase
  deriving DecidableEq, Repr

/-- The system the first `reset` leaves. -/
def System.reset : System := { core := State.reset, phase := .fresh }

/-- The transactions (60 R268). The random byte of `cycle(rnd)` is the free value `Config.rnd` (log entry 1). -/
inductive Transaction where
  | reset
  | load (bytes : List Byte)
  | cycle
  | tick
  | setKey (i : Fin 16) (b : Bool)
  | clearRedraw
  | observe
  deriving DecidableEq, Repr

/-- What a transaction answers to the host (60 R268, result column). -/
inductive Reply where
  | done
  | programTooLarge
  | observed (o : Observation)
  deriving DecidableEq, Repr

/-- `load` on the system: legal once, after `reset` and before the first cycle (20 R85, 70 R282, D21). A load that
fails changes nothing. -/
def transactLoad (bytes : List Byte) (sys : System) : Option (System × Reply) :=
  match sys.phase with
  | .fresh =>
    match sys.core.load bytes with
    | some s => some ({ core := s, phase := .loaded }, .done)
    | none => some (sys, .programTooLarge)
  | .loaded => none
  | .running => none

/-- `cycle` on the system, by the machine's cycle `cyc`: always legal (60 R268). -/
def transactCycle (cyc : State → Result) (sys : System) : Option (System × Reply) :=
  match cyc sys.core with
  | .next s => some ({ core := s, phase := .running }, .done)
  | .fault _ => none
  | .refused _ => none

/-- One transaction of the machine whose cycle is `cyc` and whose reset state is `r`, or nothing where it is not
legal: a model gives it no move (60 R268). -/
def transactBy (cyc : State → Result) (r : State) (t : Transaction) (sys : System) : Option (System × Reply) :=
  match t with
  | .reset => some ({ core := State.resetTo r sys.core, phase := .fresh }, .done)
  | .load bytes => transactLoad bytes sys
  | .cycle => transactCycle cyc sys
  | .tick => some ({ sys with core := sys.core.tick }, .done)
  | .setKey i b => some ({ sys with core := sys.core.setKey i b }, .done)
  | .clearRedraw => some ({ sys with core := sys.core.clearRedraw }, .done)
  | .observe => some (sys, .observed sys.core.observe)

/-- One transaction (60 R268). -/
def transact (t : Transaction) (sys : System) : Option (System × Reply) := transactBy step State.reset t sys

/-- One transaction at any parameters, `rnd` being the byte a `cycle(rnd)` is given (60 R268, 00 R7). -/
def transactWith (p : Params) (rnd : Byte) (t : Transaction) (sys : System) : Option (System × Reply) :=
  transactBy (stepWith p rnd) (State.resetWith p) t sys

/-- A run: any list of legal transactions, one after the other (20 R84, 60 R268). -/
def runTransactions : List Transaction → System → Option System
  | [], sys => some sys
  | t :: ts, sys =>
    match transact t sys with
    | some (sys', _) => runTransactions ts sys'
    | none => none

end Sys2Proof.Machine
end

