-- ==== Sys2Proof/Safety.lean ====
section
/-! DEFINITION. The terms claims use: what a safe run and an end of a run are, the invariant of the state, and what
it means for a part of the state to be left alone. -/

namespace Sys2Proof.Machine

/-- The invariant of every state of a run: memory is in its canonical form and the latch holds one of its six codes
(10 R41, 60 R251). The bounds of 10 R49 (a), (b) hold by the types of the fields. -/
abbrev State.Inv (s : State) : Prop := Memory.wf s.mem ∧ s.fault.toNat ≤ 5

/-- The core has not faulted (60 R252). -/
abbrev State.Running (s : State) : Prop := s.fault = 0#3

/-- A fixed point: a state that has not faulted in which the next cycle changes nothing (70 R287 (b)). -/
def State.FixedPoint (s : State) : Prop := s.Running ∧ step s = .next s

/-- A safe run: every transaction is legal and no state along it has faulted (60 R252: "a claim about a program takes
FAULT = 0 throughout as a premise or proves it"). -/
def SafeRun : List Transaction → System → Prop
  | [], sys => sys.core.Running
  | t :: ts, sys => sys.core.Running ∧ ∃ sys' r, transact t sys = some (sys', r) ∧ SafeRun ts sys'

/-- Every byte of memory reads as before. -/
def KeepsMemory (s t : State) : Prop := ∀ a, t.readByte a = s.readByte a

/-- Every byte of memory outside the `n` bytes at `a` reads as before. -/
def KeepsMemoryOutside (a n : Nat) (s t : State) : Prop :=
  ∀ c, c < a ∨ a + n ≤ c → t.readByte c = s.readByte c

/-- Every general register but those listed holds what it held. -/
def KeepsRegsBut (xs : List Reg) (s t : State) : Prop := ∀ r, r ∉ xs → t.reg r = s.reg r

/-- Nothing changed but the program counter. -/
def OnlyPc (s t : State) : Prop := t = { s with pc := t.pc } ∧ KeepsMemory s t

/-- Nothing changed but the listed registers and the program counter: not the index register, the stack, the timers,
the display, the keypad, the latch, nor any byte of memory. -/
def OnlyRegs (xs : List Reg) (s t : State) : Prop :=
  t = { s with v := t.v, pc := t.pc } ∧ KeepsRegsBut xs s t ∧ KeepsMemory s t

/-- Nothing changed but the index register, the listed registers and the program counter. -/
def OnlyIndex (xs : List Reg) (s t : State) : Prop :=
  t = { s with v := t.v, i := t.i, pc := t.pc } ∧ KeepsRegsBut xs s t ∧ KeepsMemory s t

/-- Screen pixel `(px, py)` lies under a 1 bit of the sprite `Dxyn` draws from `s`: bit 7 of the byte at `I + r` is
column 0, and both coordinates wrap. It is the set `S` of 43 R214 (bit order: 43 R213, D13; coordinates from the
registers at the start of the cycle: D9). -/
def SpriteCovers (s : State) (x y : Reg) (n : Nibble) (px py : Nat) : Prop :=
  ∃ r c b, r < n.toNat ∧ c < 8 ∧ s.readByte (s.i.toNat + r) = some b ∧ b.getLsbD (7 - c) = true ∧
    px % 64 = ((s.reg x).toNat + c) % 64 ∧ py % 32 = ((s.reg y).toNat + r) % 32

end Sys2Proof.Machine
end

