-- ==== Sys2Proof/WellFormed.lean ====
section
/-! DEFINITION. Checks on an instruction as syntax. The widths of its operands are checked by their types
(30_encoding.md rule R103: every value of every field is legal), so no instruction is ill-formed for decoding or
running. What is left to check is what 93_implementation_defined.md U4 and U5 ask a cautious CLAIM to check: that
the instruction's effect rests on neither of the spec's decisions D9 (operands latched before any write) and D10
(the flag write lands last). `step` never consults these checks: every instruction runs. -/

namespace Sys2Proof

/-- U4: the destination is VF in an ALU instruction that also writes VF as a flag (the 80 words `8Fy4`, `8Fy5`,
`8Fy6`, `8Fy7`, `8FyE`). -/
def Instr.flagIsDestination : Instr → Bool
  | .addVxVy x _ | .subVxVy x _ | .shrVx x _ | .subnVxVy x _ | .shlVx x _ => x == VF
  | .cls | .ret | .jp _ | .call _ | .seVxKk _ _ | .sneVxKk _ _ | .seVxVy _ _ | .ldVxKk _ _ | .addVxKk _ _
  | .ldVxVy _ _ | .orVxVy _ _ | .andVxVy _ _ | .xorVxVy _ _ | .sneVxVy _ _ | .ldI _ | .jpV0 _ | .rndVxKk _ _
  | .drw _ _ _ | .skpVx _ | .sknpVx _ | .ldVxDt _ | .ldVxK _ | .ldDtVx _ | .ldStVx _ | .addIVx _ | .ldFVx _
  | .ldBVx _ | .ldMemVx _ | .ldVxMem _ => false

/-- U5: VF is a source operand of an instruction that also writes VF as a flag (`8xF4`, `8xF5`, `8xF7` with
`x != F`, 45 words; `FF1E`, 1 word; `DFyn` and `DxFn`, 496 words). -/
def Instr.flagIsSource : Instr → Bool
  | .addVxVy x y | .subVxVy x y | .subnVxVy x y => x != VF && y == VF
  | .addIVx x => x == VF
  | .drw x y _ => x == VF || y == VF
  | .cls | .ret | .jp _ | .call _ | .seVxKk _ _ | .sneVxKk _ _ | .seVxVy _ _ | .ldVxKk _ _ | .addVxKk _ _
  | .ldVxVy _ _ | .orVxVy _ _ | .andVxVy _ _ | .xorVxVy _ _ | .shrVx _ _ | .shlVx _ _ | .sneVxVy _ _ | .ldI _
  | .jpV0 _ | .rndVxKk _ _ | .skpVx _ | .sknpVx _ | .ldVxDt _ | .ldVxK _ | .ldDtVx _ | .ldStVx _ | .ldFVx _
  | .ldBVx _ | .ldMemVx _ | .ldVxMem _ => false

/-- The instruction's effect does not rest on decision D9 or D10: a claim about the original repository's code
keeps to these (93 U4, U5; log entry 5). -/
def Instr.portable (i : Instr) : Bool :=
  !i.flagIsDestination && !i.flagIsSource

end Sys2Proof
end

