-- ==== Sys2Proof/Certificates/Slice0/Obligations.lean ====
section
/-! DEFINITION. The statements for the provers. A citation such as 40 R130 is rule R130 of the spec file whose number
is 40; D9 is a decision of 92_eei_decisions.md. -/

open Sys2Proof Sys2Proof.Machine

/-! ### Encoding -/

/-- Decoding an encoded instruction gives it back, with every operand at every value, alone and at the head of any
list of bytes (30 sections 1 and 2). -/
def Obligations.DecodeOfEncodeGivesTheInstruction : Prop :=
  ∀ (i : Instr) (rest : List Byte),
    decode (encode i) = .instr i ∧ decodeBytes (encodeBytes i ++ rest) = .word (.instr i) rest

/-- A word that decodes to an instruction is that instruction's only encoding: no bit is dropped, the unused `y` of
the shifts included (30 R113). -/
def Obligations.EncodeOfDecodeGivesTheWord : Prop :=
  ∀ (op : Opcode) (i : Instr), decode op = .instr i → encode i = op

/-- The decoder agrees with the mask and match columns on every word: a word is in the row of `i` exactly when it
decodes to an instruction of that row (30 R105; exactness of families 0, 5, 9 is the spec's decision D11, log
entry 6). -/
def Obligations.DecodeFollowsTheMaskTable : Prop :=
  ∀ (op : Opcode) (i : Instr),
    op &&& i.mask = i.matchBits ↔ ∃ j, decode op = .instr j ∧ j.matchBits = i.matchBits

/-- The unrecognised words are exactly those listed, family by family (30 section 3; exactness of families 0, 5, 9 is
the spec's decision D11, log entry 6). -/
def Obligations.UnrecognisedWordsAreExactlyTheListed : Prop :=
  ∀ op : Opcode, decode op = .unrecognised op ↔
    (op.toNat / 0x1000 = 0x0 ∧ op.toNat ≠ 0x00E0 ∧ op.toNat ≠ 0x00EE) ∨
    (op.toNat / 0x1000 = 0x5 ∧ op.toNat % 0x10 ≠ 0) ∨
    (op.toNat / 0x1000 = 0x8 ∧ op.toNat % 0x10 ∈ [0x8, 0x9, 0xA, 0xB, 0xC, 0xD, 0xF]) ∨
    (op.toNat / 0x1000 = 0x9 ∧ op.toNat % 0x10 ≠ 0) ∨
    (op.toNat / 0x1000 = 0xE ∧ op.toNat % 0x100 ∉ [0x9E, 0xA1]) ∨
    (op.toNat / 0x1000 = 0xF ∧ op.toNat % 0x100 ∉ [0x07, 0x0A, 0x15, 0x18, 0x1E, 0x29, 0x33, 0x55, 0x65])

/-- Words of the spec's decode table (95 Part 2) decode to the instructions it names. -/
def Obligations.SampleWordsDecode : Prop :=
  decode 0x00E0#16 = .instr .cls ∧ decode 0x2ABC#16 = .instr (.call 0xABC#12) ∧
  decode 0x3A7F#16 = .instr (.seVxKk 0xA#4 0x7F#8) ∧ decode 0x8AB6#16 = .instr (.shrVx 0xA#4 0xB#4) ∧
  decode 0x9AB0#16 = .instr (.sneVxVy 0xA#4 0xB#4) ∧ decode 0xD123#16 = .instr (.drw 1#4 2#4 3#4) ∧
  decode 0xE2A1#16 = .instr (.sknpVx 2#4) ∧ decode 0xFF65#16 = .instr (.ldVxMem 0xF#4) ∧
  decode 0x5AB1#16 = .unrecognised 0x5AB1#16

/-! ### The cycle -/

/-- When the two bytes at the program counter, the lower address the high half, decode to an instruction, a cycle of
a core that has not faulted is that instruction's meaning on that state; the advance of pc is part of the meaning
(40 R130, 20 R72). -/
def Obligations.StepRunsTheDecodedInstruction : Prop :=
  ∀ (s : State) (hi lo : Byte) (i : Instr), s.fault = 0#3 →
    s.readByte s.pc.toNat = some hi → s.readByte (s.pc.toNat + 1) = some lo →
    decodeBytes [hi, lo] = .word (.instr i) [] → step s = exec i s

/-- A word of no row advances pc by 2 and changes nothing else (40 R131). -/
def Obligations.UnrecognisedWordOnlyAdvancesThePc : Prop :=
  ∀ (s : State) (hi lo : Byte) (op : Opcode), s.fault = 0#3 →
    s.readByte s.pc.toNat = some hi → s.readByte (s.pc.toNat + 1) = some lo →
    decodeBytes [hi, lo] = .word (.unrecognised op) [] → step s = .next { s with pc := s.pc + 2#16 }

/-- A fetch from above 0xFFE latches code 1 and changes nothing else (20 section 4, 60 section 1; the spec's decision
D6, log entry 3). -/
def Obligations.FetchAboveMemoryFaults : Prop :=
  ∀ s : State, s.fault = 0#3 → s.pc.toNat > 0xFFE → step s = .next { s with fault := 1#3 }

/-- A faulted core is stuck (60 section 1; the spec's decision D2, log entry 3). -/
def Obligations.FaultedCoreIsStuck : Prop :=
  ∀ s : State, s.fault ≠ 0#3 → step s = .next s

/-- A cycle that ends faulted changed nothing but the latch: no register, byte, pixel, stack entry, timer, signal or
pc, even partly (60 section 1, 00 R13; the spec's decision D2, log entry 3). -/
def Obligations.FaultChangesNothingElse : Prop :=
  ∀ s t : State, step s = .next t → t.fault ≠ 0#3 → t = { s with fault := t.fault }

/-- From a core that has not faulted every cycle answers a next state, and the code it latches is the spec's table,
both ways (60 section 1; the spec's decisions D3, D4, D6, D7, D8, log entry 3). -/
def Obligations.FaultsExactlyAsListed : Prop :=
  ∀ s : State, s.fault = 0#3 → ∃ t, step s = .next t ∧
    (t.fault = 1#3 ↔ s.pc.toNat > 0xFFE) ∧
    (t.fault = 2#3 ↔ ∃ nnn, s.fetched = some (.instr (.call nnn)) ∧ s.sp.val = 16) ∧
    (t.fault = 3#3 ↔ s.fetched = some (.instr .ret) ∧ s.sp.val = 0) ∧
    (t.fault = 4#3 ↔
      (∃ x y n, s.fetched = some (.instr (.drw x y n)) ∧ 1 ≤ n.toNat ∧ s.i.toNat + n.toNat - 1 > 0xFFF) ∨
      (∃ x, s.fetched = some (.instr (.ldBVx x)) ∧ s.i.toNat + 2 > 0xFFF) ∨
      (∃ x, (s.fetched = some (.instr (.ldMemVx x)) ∨ s.fetched = some (.instr (.ldVxMem x))) ∧
        s.i.toNat + x.toNat > 0xFFF)) ∧
    (t.fault = 5#3 ↔ ∃ x, (s.fetched = some (.instr (.skpVx x)) ∨ s.fetched = some (.instr (.sknpVx x))) ∧
      (s.reg x).toNat > 15) ∧
    t.fault.toNat ≤ 5

/-- Every way pc changes, instruction by instruction, and that it is unchanged by a fault (40 R142). -/
def Obligations.PcChangesOnlyAsListed : Prop :=
  ∀ (i : Instr) (s t : State), s.fault = 0#3 → exec i s = .next t →
    (t.fault ≠ 0#3 → t.pc = s.pc) ∧
    (t.fault = 0#3 →
      match i with
      | .jp nnn | .call nnn => t.pc = nnn.setWidth 16
      | .jpV0 nnn => t.pc = nnn.setWidth 16 + (s.reg 0#4).setWidth 16
      | .ret => ∃ h : s.sp.val - 1 < 16, t.pc = s.stk[s.sp.val - 1]
      | .seVxKk x kk => t.pc = s.pc + (if s.reg x = kk then 4#16 else 2#16)
      | .sneVxKk x kk => t.pc = s.pc + (if s.reg x ≠ kk then 4#16 else 2#16)
      | .seVxVy x y => t.pc = s.pc + (if s.reg x = s.reg y then 4#16 else 2#16)
      | .sneVxVy x y => t.pc = s.pc + (if s.reg x ≠ s.reg y then 4#16 else 2#16)
      | .skpVx x => t.pc = s.pc + (if s.key[(s.reg x).toNat]? = some true then 4#16 else 2#16)
      | .sknpVx x => t.pc = s.pc + (if s.key[(s.reg x).toNat]? = some false then 4#16 else 2#16)
      | .ldVxK _ => t.pc = s.pc + (if ∀ k : Fin 16, s.key[k.val] = false then 0#16 else 2#16)
      | _ => t.pc = s.pc + 2#16)

/-! ### Invariants and whole-machine rules -/

/-- The reset state meets the invariant: its memory is in the canonical form, which is the model's own (log entry 4,
DESIGN CHOICE), and its latch holds one of the six codes (10 R41, R50). -/
def Obligations.ResetMeetsTheInvariant : Prop := State.reset.Inv

/-- A cycle from any state that meets the invariant ends in one that does: memory stays in its canonical form and the
latch at one of its six codes (10 R41, R42; that memory is held as a canonical list is the model's own, log
entry 4). -/
def Obligations.EveryStepKeepsTheInvariant : Prop :=
  ∀ s t : State, s.Inv → step s = .next t → t.Inv

/-- So does every transaction of the host and the core (60 section 6). -/
def Obligations.EveryTransactionKeepsTheInvariant : Prop :=
  ∀ (a : Transaction) (sys sys' : System) (r : Reply),
    sys.core.Inv → transact a sys = some (sys', r) → sys'.core.Inv

/-- Each element of the state is written only by the instructions the spec names for it: a general register by those
that name it as destination, by `Fx65` at or above it, and VF by the flag writers too; pc other than by 2 only by the
control transfers and `Fx0A`, and not at all by a fault; the keypad by none; the redraw signal is never lowered; the
latch only with the code its instruction raises (10 sections 1 to 7 and 10: R30 to R42, R47, R52; 60 R251, whose
faults are the spec's decisions D3, D4, D7, D8, log entry 3). The clause on `draws` is about the model's own counter
(log entry 1, DESIGN CHOICE). -/
def Obligations.OnlyTheNamedInstructionsWriteEachElement : Prop :=
  ∀ (i : Instr) (s t : State), exec i s = .next t →
    (∀ r : Reg, t.reg r ≠ s.reg r →
      (∃ kk, i = .ldVxKk r kk ∨ i = .addVxKk r kk ∨ i = .rndVxKk r kk) ∨
      (∃ y, i = .ldVxVy r y ∨ i = .orVxVy r y ∨ i = .andVxVy r y ∨ i = .xorVxVy r y ∨ i = .addVxVy r y ∨
        i = .subVxVy r y ∨ i = .shrVx r y ∨ i = .subnVxVy r y ∨ i = .shlVx r y) ∨
      i = .ldVxDt r ∨ i = .ldVxK r ∨ (∃ x, i = .ldVxMem x ∧ r.toNat ≤ x.toNat) ∨
      (r = VF ∧ ((∃ x, i = .addIVx x) ∨ (∃ x y n, i = .drw x y n) ∨
        ∃ x y, i = .addVxVy x y ∨ i = .subVxVy x y ∨ i = .shrVx x y ∨ i = .subnVxVy x y ∨ i = .shlVx x y))) ∧
    (t.pc ≠ s.pc + 2#16 → (t.pc = s.pc ∧ (t.fault ≠ 0#3 ∨ ∃ x, i = .ldVxK x)) ∨ i = .ret ∨
      (∃ nnn, i = .jp nnn ∨ i = .call nnn ∨ i = .jpV0 nnn) ∨
      (∃ x kk, i = .seVxKk x kk ∨ i = .sneVxKk x kk) ∨ (∃ x y, i = .seVxVy x y ∨ i = .sneVxVy x y) ∨
      ∃ x, i = .skpVx x ∨ i = .sknpVx x) ∧
    (t.fault ≠ s.fault →
      (t.fault = 2#3 ∧ ∃ nnn, i = .call nnn) ∨ (t.fault = 3#3 ∧ i = .ret) ∨
      (t.fault = 4#3 ∧ ((∃ x y n, i = .drw x y n) ∨ ∃ x, i = .ldBVx x ∨ i = .ldMemVx x ∨ i = .ldVxMem x)) ∨
      (t.fault = 5#3 ∧ ∃ x, i = .skpVx x ∨ i = .sknpVx x)) ∧
    t.key = s.key ∧
    (t.i ≠ s.i → (∃ nnn, i = .ldI nnn) ∨ ∃ x, i = .addIVx x ∨ i = .ldFVx x ∨ i = .ldMemVx x ∨ i = .ldVxMem x) ∧
    (t.sp ≠ s.sp → i = .ret ∨ ∃ nnn, i = .call nnn) ∧
    (t.stk ≠ s.stk → ∃ nnn, i = .call nnn) ∧
    (t.dt ≠ s.dt → ∃ x, i = .ldDtVx x) ∧
    (t.st ≠ s.st → ∃ x, i = .ldStVx x) ∧
    (t.fb ≠ s.fb → i = .cls ∨ ∃ x y n, i = .drw x y n) ∧
    (t.rd ≠ s.rd → t.rd = true ∧ (i = .cls ∨ ∃ x y n, i = .drw x y n)) ∧
    ((∃ a, t.readByte a ≠ s.readByte a) → ∃ x, i = .ldBVx x ∨ i = .ldMemVx x) ∧
    (t.draws ≠ s.draws → ∃ x kk, i = .rndVxKk x kk)

/-- No instruction carries the program counter, the stack, the sound timer, the redraw signal or the latch into a
general register: two states that differ only in these give the same registers (10 section 7, R48, which the spec
marks as derived). It compares two runs, and for `Cxkk` it holds because both take the free byte of the same count
`draws` (log entry 1, DESIGN CHOICE): it says nothing of two runs given different random bytes. -/
def Obligations.HiddenElementsNeverReachARegister : Prop :=
  ∀ (i : Instr) (s t : State) (pc : Word) (sp : Fin 17) (stk : Vector Word 16) (st : Byte) (rd : Bool)
    (fault : BitVec 3), exec i s = .next t →
    ∃ t', exec i { s with pc := pc, sp := sp, stk := stk, st := st, rd := rd, fault := fault } = .next t' ∧
      t'.v = t.v

/-! ### Reset, host, memory -/

/-- Every element after reset (10 R50; `RD` false is the spec's decision D22 and `FAULT` 0 its decision D2); the bytes
of glyph 0 written out, the other glyphs as the model's `font` holds them (10 R43; the spec's decision D14, log
entry 9). -/
def Obligations.ResetLeavesTheListedValues : Prop :=
  (∀ r, State.reset.reg r = 0#8) ∧ State.reset.i = 0#16 ∧ State.reset.pc = 0x200#16 ∧ State.reset.sp = 0 ∧
  (∀ k : Fin 16, State.reset.stk[k.val] = 0#16) ∧ State.reset.dt = 0#8 ∧ State.reset.st = 0#8 ∧
  (∀ cx cy, Framebuffer.pixel State.reset.fb cx cy = false) ∧ (∀ k : Fin 16, State.reset.key[k.val] = false) ∧
  State.reset.rd = false ∧ State.reset.fault = 0#3 ∧
  (∀ a, State.reset.readByte a =
    if a > 0xFFF then none
    else if 0x050 ≤ a ∧ a ≤ 0x09F then some (font.getD (a - 0x050) 0#8) else some 0#8) ∧
  font.length = 80 ∧ font.take 5 = [0xF0#8, 0x90#8, 0x90#8, 0x90#8, 0xF0#8]

/-- With nothing loaded the machine runs 1792 no-ops and then faults at the fetch from 0x1000 (70 section 1, R281,
which the spec marks as derived). -/
def Obligations.EmptyMemoryRunsToItsEndAndFaults : Prop :=
  Host.Core.run Sys2Proof.core 1792 State.reset = .next { State.reset with pc := 0x1000#16 } ∧
  Host.Core.run Sys2Proof.core 1793 State.reset = .next { State.reset with pc := 0x1000#16, fault := 1#3 }

/-- `tick` is always legal, lowers each nonzero timer by exactly 1, leaves a zero one, and touches nothing else
(60 section 4). -/
def Obligations.TickLowersEachTimerByOne : Prop :=
  ∀ sys : System, ∃ sys', transact .tick sys = some (sys', .done) ∧ sys'.phase = sys.phase ∧
    sys'.core = { sys.core with dt := sys'.core.dt, st := sys'.core.st } ∧
    sys'.core.dt.toNat = sys.core.dt.toNat - 1 ∧ sys'.core.st.toNat = sys.core.st.toNat - 1

/-- `load` after reset copies a program of at most 3584 bytes to 0x200 upward and touches nothing else; a longer one
is refused as `ProgramTooLarge` and nothing changes; at any other time there is no such move (20 section 7; the one
time it is legal is the spec's decision D21, log entry 11). -/
def Obligations.LoadCopiesTheProgramOrRefusesIt : Prop :=
  ∀ (sys : System) (bytes : List Byte),
    (sys.phase ≠ .fresh → transact (.load bytes) sys = none) ∧
    (sys.phase = .fresh → bytes.length > 3584 → transact (.load bytes) sys = some (sys, .programTooLarge)) ∧
    (sys.phase = .fresh → bytes.length ≤ 3584 → ∃ sys', transact (.load bytes) sys = some (sys', .done) ∧
      sys'.phase = .loaded ∧ sys'.core = { sys.core with mem := sys'.core.mem } ∧
      (∀ k (h : k < bytes.length), sys'.core.readByte (512 + k) = some bytes[k]) ∧
      KeepsMemoryOutside 512 bytes.length sys.core sys'.core)

/-- The other host transactions are always legal and touch only their own element; `reset` restores everything the
spec names (the draw counter is the model's own, log entry 1); `observe` changes nothing (60 sections 5 and 6). -/
def Obligations.HostTransactionsTouchOnlyTheirOwn : Prop :=
  ∀ sys : System,
    (∀ (k : Fin 16) (b : Bool), ∃ sys', transact (.setKey k b) sys = some (sys', .done) ∧
      sys'.phase = sys.phase ∧ sys'.core = { sys.core with key := sys'.core.key } ∧
      ∀ j : Fin 16, sys'.core.key[j.val] = if j = k then b else sys.core.key[j.val]) ∧
    transact .clearRedraw sys = some ({ sys with core := { sys.core with rd := false } }, .done) ∧
    transact .reset sys = some ({ core := { State.reset with draws := sys.core.draws }, phase := .fresh }, .done) ∧
    transact .observe sys = some (sys, .observed
      { fb := sys.core.fb, redraw := sys.core.rd, sound := decide (sys.core.st ≠ 0#8), fault := sys.core.fault })

/-- A stored byte reads back and no other byte moves, in any memory (20 R77, section 5). -/
def Obligations.StoredByteReadsBack : Prop :=
  ∀ (s : State) (a c : Nat) (b : Byte), a < 0x1000 →
    (s.storeBytes a [b]).readByte c = if c = a then some b else s.readByte c

/-- A store to the address of the very next instruction is seen by its fetch, with nothing in between (20 section 6,
R82, which the spec marks as derived). -/
def Obligations.StoreIsSeenByTheNextFetch : Prop :=
  ∀ (s : State) (x : Reg), 1 ≤ x.toNat → s.i.toNat + x.toNat ≤ 0xFFF → s.i = s.pc + 2#16 →
    ∃ t, exec (.ldMemVx x) s = .next t ∧ t.pc = s.i ∧ t.fetch = some (opcodeOfBytes (s.reg 0#4) (s.reg 1#4))

/-- `cycle` is always legal: it is one `step` of the core, it answers, and it leaves the phase `running`, so that no
`load` is legal after it (60 section 6, 70 section 2; that `load` has no move after a cycle is the spec's decision
D21; the phase is the model's own, log entry 11). -/
def Obligations.CycleTransactionRunsOneStep : Prop :=
  ∀ sys : System,
    (∃ t, step sys.core = .next t) ∧
    (∀ t, step sys.core = .next t → transact .cycle sys = some ({ core := t, phase := .running }, .done)) ∧
    ∀ sys' r bytes, transact .cycle sys = some (sys', r) → transact (.load bytes) sys' = none

/-! ### The open parameters (00 R7) -/

/-- At the values the spec takes and with the free byte, the machine with its parameters as arguments is the machine:
every cycle, every transaction, and the reset state (00 section 4; how the parameters are held is the model's own,
log entry 16). -/
def Obligations.SpecParametersGiveTheMachine : Prop :=
  (∀ s : State, stepWith Params.spec (Config.rnd s.draws) s = step s) ∧ State.resetWith Params.spec = State.reset ∧
  ∀ (t : Transaction) (sys : System), transactWith Params.spec (Config.rnd sys.core.draws) t sys = transact t sys

/-- Whatever the font given, reset puts its 80 bytes at 0x050 to 0x09F, glyph 0 being the source's, and every other
byte and element is as the reset state has it (10 sections 5 and 9; the font as a parameter is the spec's decision
D14, log entry 16). -/
def Obligations.ResetCopiesTheGivenFont : Prop :=
  ∀ p : Params, p.font.length = 80 ∧
    (∀ k (h : k < p.font.length), (State.resetWith p).readByte (0x050 + k) = some p.font[k]) ∧
    p.font.take 5 = [0xF0#8, 0x90#8, 0x90#8, 0x90#8, 0xF0#8] ∧
    KeepsMemoryOutside 0x050 80 State.reset (State.resetWith p) ∧
    State.resetWith p = { State.reset with mem := (State.resetWith p).mem }

/-- The invariant holds after reset and is kept by every cycle at every value of every open parameter and every
random byte (00 section 4, 10 section 4; the canonical form of memory is the model's own, log entry 4; the parameters'
alternatives log entry 16). -/
def Obligations.EveryParameterKeepsTheInvariant : Prop :=
  ∀ p : Params, (State.resetWith p).Inv ∧
    ∀ (rnd : Byte) (s t : State), s.Inv → stepWith p rnd s = .next t → t.Inv

/-- A cycle that ends unfaulted where `STACK_POLICY`, `MEM_OOR_POLICY` and `KEY_OOR_POLICY` fault is the same cycle
under every other policy: the policies differ only where the spec faults (60 section 1, 00 section 4; the spec's
decisions D3, D4, D6 to D8, log entry 3; the alternatives log entry 16). -/
def Obligations.PoliciesMatterOnlyWhereTheSpecFaults : Prop :=
  ∀ (p : Params) (rnd : Byte) (s t : State),
    stepWith { p with stackPolicy := .fault, memPolicy := .fault, keyPolicy := .fault } rnd s = .next t →
    t.fault = 0#3 → stepWith p rnd s = .next t

/-- The choices that pick a value matter only where the spec says they do: the random byte to `Cxkk` (10 R44, D15),
`VF_PRIORITY` to the words whose destination is the flag they write (93 U4, D10), `KEYWAIT_PICK` when two keys are
down (93 U7, D12), `DECODE_STRICT` to the 7710 words of 93 U6 (D11), which otherwise run as CLS, RET, SE and SNE. -/
def Obligations.ChoicesMatterOnlyWhereTheSpecSays : Prop :=
  (∀ (p : Params) (rnd rnd' : Byte) (i : Instr) (s : State), (∀ x kk, i ≠ .rndVxKk x kk) →
    execWith p rnd i s = execWith p rnd' i s) ∧
  (∀ (p : Params) (pr : VfPriority) (rnd : Byte) (i : Instr) (s : State), i.flagIsDestination = false →
    execWith { p with vfPriority := pr } rnd i s = execWith p rnd i s) ∧
  (∀ (p : Params) (pick : KeyPick) (rnd : Byte) (i : Instr) (s : State),
    (∀ j k : Fin 16, s.key[j.val] = true → s.key[k.val] = true → j = k) →
    execWith { p with keyWaitPick := pick } rnd i s = execWith p rnd i s) ∧
  (∀ op : Opcode, decodeWith false op ≠ decode op ↔
    (op.toNat / 0x1000 = 0x0 ∧ op.toNat / 0x100 ≠ 0 ∧ op.toNat % 0x100 ∈ [0xE0, 0xEE]) ∨
    (op.toNat / 0x1000 ∈ [0x5, 0x9] ∧ op.toNat % 0x10 ≠ 0)) ∧
  ∀ (x y : Reg) (n : Nibble),
    decodeWith false (encXkk 0x0#4 x 0xE0#8) = .instr .cls ∧ decodeWith false (encXkk 0x0#4 x 0xEE#8) = .instr .ret ∧
    decodeWith false (encXyn 0x5#4 x y n) = .instr (.seVxVy x y) ∧
    decodeWith false (encXyn 0x9#4 x y n) = .instr (.sneVxVy x y)

/-! ### Control transfer -/

/-- `1nnn` (40 R133): pc becomes `nnn`, nothing else changes; a jump to itself leaves the state as it was; a jump to
0xFFF makes the next cycle fault at its fetch. -/
def Obligations.JpSetsThePc : Prop :=
  ∀ (s : State) (nnn : Addr12), decode (encNnn 0x1#4 nnn) = .instr (.jp nnn) ∧
    ∃ t, exec (.jp nnn) s = .next t ∧ t.pc = nnn.setWidth 16 ∧ OnlyPc s t ∧
      (nnn.setWidth 16 = s.pc → t = s) ∧
      (nnn = 0xFFF#12 → s.fault = 0#3 → step t = .next { t with fault := 1#3 })

/-- `2nnn` with room on the stack pushes the advanced pc and jumps (40 section 2). -/
def Obligations.CallPushesTheAdvancedPc : Prop :=
  ∀ (s : State) (nnn : Addr12), s.sp.val < 16 →
    ∃ t, exec (.call nnn) s = .next t ∧ t.pc = nnn.setWidth 16 ∧ t.sp.val = s.sp.val + 1 ∧
      (∀ k : Fin 16, t.stk[k.val] = if k.val = s.sp.val then s.pc + 2#16 else s.stk[k.val]) ∧
      t = { s with pc := t.pc, sp := t.sp, stk := t.stk } ∧ KeepsMemory s t

/-- `00EE` with an entry on the stack pops it into pc; the entry keeps its value (40 section 2). -/
def Obligations.RetPopsThePc : Prop :=
  ∀ s : State, s.sp.val ≠ 0 →
    ∃ t, exec .ret s = .next t ∧ t.sp.val = s.sp.val - 1 ∧
      (∃ h : s.sp.val - 1 < 16, t.pc = s.stk[s.sp.val - 1]) ∧
      t = { s with pc := t.pc, sp := t.sp } ∧ KeepsMemory s t

/-- A 17th nested `CALL` latches code 2 and a `RET` with no entry code 3, and nothing else changes (40 section 2; the
spec's decisions D3 and D4, log entry 3). -/
def Obligations.StackFaultsChangeNothingElse : Prop :=
  ∀ s : State,
    (s.sp.val = 16 → ∀ nnn, exec (.call nnn) s = .next { s with fault := 2#3 }) ∧
    (s.sp.val = 0 → exec .ret s = .next { s with fault := 3#3 })

/-- A `CALL` and then a `RET` come back to the instruction after the `CALL` at the same depth (40 section 2). -/
def Obligations.RetComesBackAfterTheCall : Prop :=
  ∀ (s : State) (nnn : Addr12), s.sp.val < 16 →
    ∃ t u, exec (.call nnn) s = .next t ∧ exec .ret t = .next u ∧
      u = { s with pc := s.pc + 2#16, stk := t.stk } ∧
      ∀ k : Fin 16, k.val ≠ s.sp.val → u.stk[k.val] = s.stk[k.val]

/-- `3xkk` and `4xkk` (40 R135, R136): pc moves by 4 when the condition holds and by 2 when not, whatever the skipped
bytes are, and nothing else changes. -/
def Obligations.SkipsOnAByte : Prop :=
  ∀ (s : State) (x : Reg) (kk : Byte),
    decode (encXkk 0x3#4 x kk) = .instr (.seVxKk x kk) ∧ decode (encXkk 0x4#4 x kk) = .instr (.sneVxKk x kk) ∧
    (∃ t, exec (.seVxKk x kk) s = .next t ∧ t.pc = s.pc + (if s.reg x = kk then 4#16 else 2#16) ∧ OnlyPc s t) ∧
    (∃ t, exec (.sneVxKk x kk) s = .next t ∧ t.pc = s.pc + (if s.reg x ≠ kk then 4#16 else 2#16) ∧ OnlyPc s t)

/-- `5xy0` and `9xy0`: the same skips comparing two registers (40 section 3). -/
def Obligations.SkipsOnARegister : Prop :=
  ∀ (s : State) (x y : Reg),
    (∃ t, exec (.seVxVy x y) s = .next t ∧ t.pc = s.pc + (if s.reg x = s.reg y then 4#16 else 2#16) ∧ OnlyPc s t) ∧
    (∃ t, exec (.sneVxVy x y) s = .next t ∧ t.pc = s.pc + (if s.reg x ≠ s.reg y then 4#16 else 2#16) ∧ OnlyPc s t)

/-- `Bnnn`: pc becomes `nnn + V0` over the integers, up to 0x10FE, with no mask; VF and everything else is left alone
(40 section 4; that no mask is applied is the spec's decision D28). -/
def Obligations.JpV0AddsV0 : Prop :=
  ∀ (s : State) (nnn : Addr12),
    ∃ t, exec (.jpV0 nnn) s = .next t ∧ t.pc.toNat = nnn.toNat + (s.reg 0#4).toNat ∧ OnlyPc s t

/-- A jump to itself and a key wait with no key down are fixed points (70 section 5). -/
def Obligations.SelfJumpAndKeyWaitAreFixedPoints : Prop :=
  ∀ s : State, s.fault = 0#3 →
    (∀ nnn, s.fetched = some (.instr (.jp nnn)) → nnn.setWidth 16 = s.pc → s.FixedPoint) ∧
    (∀ x, s.fetched = some (.instr (.ldVxK x)) → (∀ k : Fin 16, s.key[k.val] = false) → s.FixedPoint)

/-! ### Load, arithmetic, logic -/

/-- `6xkk` and `7xkk` (41 R160, R161): the byte, and the sum mod 256; no flag, VF included among the registers left
alone unless it is `x`. -/
def Obligations.LoadsAndAddsAByte : Prop :=
  ∀ (s : State) (x : Reg) (kk : Byte),
    decode (encXkk 0x6#4 x kk) = .instr (.ldVxKk x kk) ∧ decode (encXkk 0x7#4 x kk) = .instr (.addVxKk x kk) ∧
    (∃ t, exec (.ldVxKk x kk) s = .next t ∧ t.reg x = kk ∧ t.pc = s.pc + 2#16 ∧ OnlyRegs [x] s t) ∧
    (∃ t, exec (.addVxKk x kk) s = .next t ∧ (t.reg x).toNat = ((s.reg x).toNat + kk.toNat) % 256 ∧
      t.pc = s.pc + 2#16 ∧ OnlyRegs [x] s t)

/-- `8xy0` to `8xy3` (41 R162 to R165): copy, or, and, xor, bit by bit, with no flag. -/
def Obligations.CopiesAndCombinesRegisters : Prop :=
  ∀ (s : State) (x y : Reg),
    decode (encXyn 0x8#4 x y 0x0#4) = .instr (.ldVxVy x y) ∧ decode (encXyn 0x8#4 x y 0x1#4) = .instr (.orVxVy x y) ∧
    decode (encXyn 0x8#4 x y 0x2#4) = .instr (.andVxVy x y) ∧ decode (encXyn 0x8#4 x y 0x3#4) = .instr (.xorVxVy x y) ∧
    (∃ t, exec (.ldVxVy x y) s = .next t ∧ t.reg x = s.reg y ∧ t.pc = s.pc + 2#16 ∧ OnlyRegs [x] s t) ∧
    (∃ t, exec (.orVxVy x y) s = .next t ∧
      (∀ k, (t.reg x).getLsbD k = ((s.reg x).getLsbD k || (s.reg y).getLsbD k)) ∧
      t.pc = s.pc + 2#16 ∧ OnlyRegs [x] s t) ∧
    (∃ t, exec (.andVxVy x y) s = .next t ∧
      (∀ k, (t.reg x).getLsbD k = ((s.reg x).getLsbD k && (s.reg y).getLsbD k)) ∧
      t.pc = s.pc + 2#16 ∧ OnlyRegs [x] s t) ∧
    (∃ t, exec (.xorVxVy x y) s = .next t ∧
      (∀ k, (t.reg x).getLsbD k = ((s.reg x).getLsbD k ^^ (s.reg y).getLsbD k)) ∧
      t.pc = s.pc + 2#16 ∧ OnlyRegs [x] s t)

/-- `8xy4`: the sum mod 256 and the carry; with `x = F` only the flag is left (41 section 3; operands latched: the
spec's decision D9; the flag lands last: D10, log entry 5). -/
def Obligations.AddWritesSumAndCarry : Prop :=
  ∀ (s : State) (x y : Reg), ∃ t, exec (.addVxVy x y) s = .next t ∧
    (x ≠ VF → (t.reg x).toNat = ((s.reg x).toNat + (s.reg y).toNat) % 256) ∧
    t.reg VF = (if (s.reg x).toNat + (s.reg y).toNat > 255 then 1#8 else 0#8) ∧
    t.pc = s.pc + 2#16 ∧ OnlyRegs [x, VF] s t

/-- `8xy5` and `8xy7`: the difference mod 256 and VF 1 exactly when the minuend is strictly greater, so 0 at equality
(41 section 3, C3; D9 and D10 as for `8xy4`; VF 0 otherwise in `8xy7`: the spec's decision D26). -/
def Obligations.SubAndSubnWriteDifferenceAndStrictFlag : Prop :=
  ∀ (s : State) (x y : Reg),
    (∃ t, exec (.subVxVy x y) s = .next t ∧
      (x ≠ VF → (t.reg x).toNat = (256 + (s.reg x).toNat - (s.reg y).toNat) % 256) ∧
      t.reg VF = (if (s.reg x).toNat > (s.reg y).toNat then 1#8 else 0#8) ∧
      t.pc = s.pc + 2#16 ∧ OnlyRegs [x, VF] s t) ∧
    (∃ t, exec (.subnVxVy x y) s = .next t ∧
      (x ≠ VF → (t.reg x).toNat = (256 + (s.reg y).toNat - (s.reg x).toNat) % 256) ∧
      t.reg VF = (if (s.reg y).toNat > (s.reg x).toNat then 1#8 else 0#8) ∧
      t.pc = s.pc + 2#16 ∧ OnlyRegs [x, VF] s t)

/-- `8xy6` and `8xyE` for every value of the unused `y`: half the value with bit 0 in VF, twice the value mod 256 with
bit 7 in VF; `V[y]` is not touched (41 section 3, 30 R113; with `x = F` only the flag is left: the spec's decision
D10, log entry 5). -/
def Obligations.ShiftsMoveOneBitIntoVf : Prop :=
  ∀ (s : State) (x y : Reg),
    (∃ t, exec (.shrVx x y) s = .next t ∧ (x ≠ VF → (t.reg x).toNat = (s.reg x).toNat / 2) ∧
      (t.reg VF).toNat = (s.reg x).toNat % 2 ∧ t.pc = s.pc + 2#16 ∧ OnlyRegs [x, VF] s t) ∧
    (∃ t, exec (.shlVx x y) s = .next t ∧ (x ≠ VF → (t.reg x).toNat = (s.reg x).toNat * 2 % 256) ∧
      (t.reg VF).toNat = (s.reg x).toNat / 128 ∧ t.pc = s.pc + 2#16 ∧ OnlyRegs [x, VF] s t)

/-- `Cxkk`: the cycle's random byte and `kk`, for every byte the cycle may be given; the byte `exec` takes is the
free value, which nothing constrains (41 section 4, 10 R44; the draw counter is the model's own, log entry 1). -/
def Obligations.RndMasksTheRandomByte : Prop :=
  ∀ (s : State) (x : Reg) (kk : Byte),
    (∀ b : Byte, ∃ t, rndWith b x kk s = .next t ∧ (∀ k, (t.reg x).getLsbD k = (b.getLsbD k && kk.getLsbD k)) ∧
      t.pc = s.pc + 2#16 ∧ t = { s with v := t.v, pc := t.pc, draws := s.draws + 1 } ∧ KeepsRegsBut [x] s t ∧
      KeepsMemory s t) ∧
    ∃ t, exec (.rndVxKk x kk) s = .next t ∧ rndWith (Config.rnd s.draws) x kk s = .next t ∧
      t.reg x = Config.rnd s.draws &&& kk ∧ t.draws = s.draws + 1

/-! ### Index register and memory -/

/-- `Annn` and `Fx29` (42 R190, R192): `I` becomes `nnn`, at most 0xFFF, or `0x050 + 5 * vx` of the whole byte; no
flag, nothing else changes. -/
def Obligations.SetsTheIndexRegister : Prop :=
  ∀ (s : State) (nnn : Addr12) (x : Reg),
    decode (encNnn 0xA#4 nnn) = .instr (.ldI nnn) ∧ decode (encXkk 0xF#4 x 0x29#8) = .instr (.ldFVx x) ∧
    (∃ t, exec (.ldI nnn) s = .next t ∧ t.i.toNat = nnn.toNat ∧ t.i.toNat ≤ 0xFFF ∧ t.pc = s.pc + 2#16 ∧
      OnlyIndex [] s t) ∧
    (∃ t, exec (.ldFVx x) s = .next t ∧ t.i.toNat = 0x050 + 5 * (s.reg x).toNat ∧ t.pc = s.pc + 2#16 ∧
      OnlyIndex [] s t)

/-- `Fx1E`: `I` becomes the sum mod 2^16 and VF is 1 exactly when the sum passes 0xFFF (42 section 1; the width is the
spec's decision D16, VF 0 otherwise D26, the old VF as addend when `x = F` D9). -/
def Obligations.AddIAddsAndFlags : Prop :=
  ∀ (s : State) (x : Reg), ∃ t, exec (.addIVx x) s = .next t ∧
    t.i.toNat = (s.i.toNat + (s.reg x).toNat) % 65536 ∧
    t.reg VF = (if s.i.toNat + (s.reg x).toNat > 0xFFF then 1#8 else 0#8) ∧
    t.pc = s.pc + 2#16 ∧ OnlyIndex [VF] s t

/-- `Fx33`: hundreds, tens and ones at `I`, `I + 1`, `I + 2`; `I` and everything else is left alone (42 section 2). -/
def Obligations.LdBStoresTheDigits : Prop :=
  ∀ (s : State) (x : Reg), s.i.toNat + 2 ≤ 0xFFF →
    ∃ t h d o, exec (.ldBVx x) s = .next t ∧
      t.readByte s.dataAddr = some h ∧ t.readByte (s.dataAddr + 1) = some d ∧ t.readByte (s.dataAddr + 2) = some o ∧
      h.toNat ≤ 2 ∧ d.toNat ≤ 9 ∧ o.toNat ≤ 9 ∧ 100 * h.toNat + 10 * d.toNat + o.toNat = (s.reg x).toNat ∧
      KeepsMemoryOutside s.dataAddr 3 s t ∧ t.pc = s.pc + 2#16 ∧ t = { s with mem := t.mem, pc := t.pc }

/-- `Fx55`: `V[0]` to `V[x]` at `I` to `I + x`, and `I` advances by `x + 1`; no other byte changes (42 section 2). -/
def Obligations.LdMemStoresTheRegisters : Prop :=
  ∀ (s : State) (x : Reg), s.i.toNat + x.toNat ≤ 0xFFF →
    ∃ t, exec (.ldMemVx x) s = .next t ∧
      (∀ r : Reg, r.toNat ≤ x.toNat → t.readByte (s.dataAddr + r.toNat) = some (s.reg r)) ∧
      KeepsMemoryOutside s.dataAddr (x.toNat + 1) s t ∧ t.i.toNat = s.i.toNat + x.toNat + 1 ∧
      t.pc = s.pc + 2#16 ∧ t = { s with mem := t.mem, i := t.i, pc := t.pc }

/-- `Fx65`: `V[0]` to `V[x]` from `I` to `I + x`, and `I` advances by `x + 1`; the registers above and memory are left
alone (42 section 2). -/
def Obligations.LdVxMemLoadsTheRegisters : Prop :=
  ∀ (s : State) (x : Reg), s.i.toNat + x.toNat ≤ 0xFFF →
    ∃ t, exec (.ldVxMem x) s = .next t ∧
      (∀ r : Reg, r.toNat ≤ x.toNat → s.readByte (s.dataAddr + r.toNat) = some (t.reg r)) ∧
      (∀ r : Reg, x.toNat < r.toNat → t.reg r = s.reg r) ∧ t.i.toNat = s.i.toNat + x.toNat + 1 ∧
      t.pc = s.pc + 2#16 ∧ t = { s with v := t.v, i := t.i, pc := t.pc } ∧ KeepsMemory s t

/-- `Fx55` and then `Fx65` with `I` set back give `V[0]` to `V[x]` back, whatever the registers held in between, and
`I` advances by `x + 1` each time (42 section 2, the source's round trip). -/
def Obligations.StoreThenLoadRestoresTheRegisters : Prop :=
  ∀ (s : State) (x : Reg) (w : Vector Byte 16), s.i.toNat + x.toNat ≤ 0xFFF →
    ∃ t u, exec (.ldMemVx x) s = .next t ∧ exec (.ldVxMem x) { t with i := s.i, v := w } = .next u ∧
      (∀ r : Reg, r.toNat ≤ x.toNat → u.reg r = s.reg r) ∧
      t.i.toNat = s.i.toNat + x.toNat + 1 ∧ u.i = t.i

/-- A data access whose last byte lies above 0xFFF latches code 4 and changes nothing else, not even partly
(20 section 4; the spec's decision D7, log entry 3). -/
def Obligations.DataAccessAboveMemoryFaults : Prop :=
  ∀ (s : State) (x y : Reg) (n : Nibble),
    (1 ≤ n.toNat → s.i.toNat + n.toNat - 1 > 0xFFF → exec (.drw x y n) s = .next { s with fault := 4#3 }) ∧
    (s.i.toNat + 2 > 0xFFF → exec (.ldBVx x) s = .next { s with fault := 4#3 }) ∧
    (s.i.toNat + x.toNat > 0xFFF → exec (.ldMemVx x) s = .next { s with fault := 4#3 } ∧
      exec (.ldVxMem x) s = .next { s with fault := 4#3 })

/-! ### Display -/

/-- `00E0` (43 R210): every pixel off and the redraw signal raised, whatever was there; nothing else changes, VF
included. -/
def Obligations.ClsClearsTheFramebuffer : Prop :=
  decode 0x00E0#16 = .instr .cls ∧
  ∀ s : State, ∃ t, exec .cls s = .next t ∧ (∀ cx cy, Framebuffer.pixel t.fb cx cy = false) ∧ t.rd = true ∧
    t.pc = s.pc + 2#16 ∧ t = { s with fb := t.fb, rd := t.rd, pc := t.pc } ∧ KeepsMemory s t

/-- `Dxyn` in closed form: the pixels under the sprite's 1 bits are flipped and no other; VF is 1 exactly when one of
them was on; the redraw signal is raised; memory, `I` and the other registers are left alone; `n = 0` reads nothing
and flips nothing (43 sections 2 to 4, R214, which the spec marks as derived; bit order: the spec's decision D13, log
entry 8; coordinates latched: D9). -/
def Obligations.DrwFlipsTheSpriteAndFlagsCollision : Prop :=
  ∀ (s : State) (x y : Reg) (n : Nibble), (n.toNat = 0 ∨ s.i.toNat + n.toNat - 1 ≤ 0xFFF) →
    ∃ t, exec (.drw x y n) s = .next t ∧
      (∀ px py, (SpriteCovers s x y n px py → Framebuffer.pixel t.fb px py = !Framebuffer.pixel s.fb px py) ∧
        (¬ SpriteCovers s x y n px py → Framebuffer.pixel t.fb px py = Framebuffer.pixel s.fb px py)) ∧
      ((∃ px py, SpriteCovers s x y n px py ∧ Framebuffer.pixel s.fb px py = true) → t.reg VF = 1#8) ∧
      ((∀ px py, SpriteCovers s x y n px py → Framebuffer.pixel s.fb px py = false) → t.reg VF = 0#8) ∧
      t.rd = true ∧ t.pc = s.pc + 2#16 ∧ t = { s with v := t.v, fb := t.fb, rd := t.rd, pc := t.pc } ∧
      KeepsRegsBut [VF] s t ∧ KeepsMemory s t

/-- Drawing the same sprite twice at the same place restores the framebuffer; on a clear one the first draw gives VF 0
and the second VF 1 exactly when the sprite has a 1 bit (43 section 3, the source's collision property). VF is not a
coordinate register here: the first draw would move the sprite. -/
def Obligations.DrawingTwiceErases : Prop :=
  ∀ (s : State) (x y : Reg) (n : Nibble), x ≠ VF → y ≠ VF → (n.toNat = 0 ∨ s.i.toNat + n.toNat - 1 ≤ 0xFFF) →
    ∃ t u, exec (.drw x y n) s = .next t ∧ exec (.drw x y n) t = .next u ∧ u.fb = s.fb ∧
      ((∀ px py, Framebuffer.pixel s.fb px py = false) →
        t.reg VF = 0#8 ∧ (u.reg VF = 1#8 ↔ ∃ px py, SpriteCovers s x y n px py))

/-! ### Keypad and timers -/

/-- `Ex9E` and `ExA1` with a key index below 16 skip on the key's level and change nothing else (44 section 1). -/
def Obligations.SkipsOnAKey : Prop :=
  ∀ (s : State) (x : Reg) (h : (s.reg x).toNat < 16),
    (∃ t, exec (.skpVx x) s = .next t ∧
      t.pc = s.pc + (if s.key[(s.reg x).toNat] = true then 4#16 else 2#16) ∧ OnlyPc s t) ∧
    (∃ t, exec (.sknpVx x) s = .next t ∧
      t.pc = s.pc + (if s.key[(s.reg x).toNat] = false then 4#16 else 2#16) ∧ OnlyPc s t)

/-- A key index above 15 latches code 5 and changes nothing else (44 section 1; the spec's decision D8, log
entry 3). -/
def Obligations.KeyIndexAboveFifteenFaults : Prop :=
  ∀ (s : State) (x : Reg), (s.reg x).toNat > 15 →
    exec (.skpVx x) s = .next { s with fault := 5#3 } ∧ exec (.sknpVx x) s = .next { s with fault := 5#3 }

/-- `Fx0A`: with no key down the cycle changes nothing at all; with keys down it takes the lowest index and goes on
(44 section 2; the lowest of several: the spec's decision D12, log entry 7). -/
def Obligations.KeyWaitWaitsOrTakesTheLowestKey : Prop :=
  ∀ (s : State) (x : Reg),
    ((∀ k : Fin 16, s.key[k.val] = false) → exec (.ldVxK x) s = .next s) ∧
    (∀ k : Fin 16, s.key[k.val] = true → (∀ j : Fin 16, j < k → s.key[j.val] = false) →
      ∃ t, exec (.ldVxK x) s = .next t ∧ (t.reg x).toNat = k.val ∧ t.pc = s.pc + 2#16 ∧ OnlyRegs [x] s t)

/-- `Fx07` and `Fx15` (44 R233, R234): the delay timer into a register, unchanged by the read, and a register into the
delay timer; nothing else changes. -/
def Obligations.MovesTheDelayTimer : Prop :=
  ∀ (s : State) (x : Reg),
    decode (encXkk 0xF#4 x 0x07#8) = .instr (.ldVxDt x) ∧ decode (encXkk 0xF#4 x 0x15#8) = .instr (.ldDtVx x) ∧
    (∃ t, exec (.ldVxDt x) s = .next t ∧ t.reg x = s.dt ∧ t.pc = s.pc + 2#16 ∧ OnlyRegs [x] s t) ∧
    (∃ t, exec (.ldDtVx x) s = .next t ∧ t.dt = s.reg x ∧ t.pc = s.pc + 2#16 ∧
      t = { s with dt := t.dt, pc := t.pc } ∧ KeepsMemory s t)

/-- `Fx18` (44 R235): a register into the sound timer, nothing else changes; and no instruction reads the sound timer
back: two states that differ only in it end in states that differ only in it, while the host sees whether it is
nonzero. The second clause compares two runs, and for `Cxkk` it holds because both take the free byte of the same
count `draws` (log entry 1, DESIGN CHOICE). -/
def Obligations.SetsTheSoundTimerThatNothingReads : Prop :=
  (∀ (s : State) (x : Reg), decode (encXkk 0xF#4 x 0x18#8) = .instr (.ldStVx x) ∧
    ∃ t, exec (.ldStVx x) s = .next t ∧ t.st = s.reg x ∧ t.pc = s.pc + 2#16 ∧
      t = { s with st := t.st, pc := t.pc } ∧ KeepsMemory s t ∧ (t.observe.sound = true ↔ s.reg x ≠ 0#8)) ∧
  ∀ (i : Instr) (s t : State) (b : Byte), exec i s = .next t →
    ∃ t', exec i { s with st := b } = .next t' ∧ t' = { t with st := t'.st }
end

