-- ==== Sys2Proof/Laws/Decode.lean ====
section
/-! SUPPORT. The fields of a word, of an encoded instruction and of two bytes laid side by side
(30_encoding.md rules R101, R102). -/

namespace Sys2Proof.Laws
open Sys2Proof

@[simp] theorem opFam_encNnn (f : Nibble) (a : Addr12) : opFam (encNnn f a) = f := by
  apply BitVec.eq_of_getLsbD_eq
  intro i hi
  simp only [opFam, encNnn, BitVec.getLsbD_extractLsb', BitVec.getLsbD_append]
  simp [hi, show ¬ 12 + i < 12 by omega]

@[simp] theorem opNnn_encNnn (f : Nibble) (a : Addr12) : opNnn (encNnn f a) = a := by
  apply BitVec.eq_of_getLsbD_eq
  intro i hi
  simp only [opNnn, encNnn, BitVec.getLsbD_extractLsb', BitVec.getLsbD_append]
  simp [hi]

@[simp] theorem opFam_encXkk (f : Nibble) (x : Reg) (kk : Byte) : opFam (encXkk f x kk) = f := by
  apply BitVec.eq_of_getLsbD_eq
  intro i hi
  simp only [opFam, encXkk, BitVec.getLsbD_extractLsb', BitVec.getLsbD_append]
  simp [hi, show ¬ 12 + i < 8 by omega, show ¬ 12 + i - 8 < 4 by omega, show 12 + i - 8 - 4 = i by omega]

@[simp] theorem opX_encXkk (f : Nibble) (x : Reg) (kk : Byte) : opX (encXkk f x kk) = x := by
  apply BitVec.eq_of_getLsbD_eq
  intro i hi
  simp only [opX, encXkk, BitVec.getLsbD_extractLsb', BitVec.getLsbD_append]
  simp [hi, show ¬ 8 + i < 8 by omega]

@[simp] theorem opKk_encXkk (f : Nibble) (x : Reg) (kk : Byte) : opKk (encXkk f x kk) = kk := by
  apply BitVec.eq_of_getLsbD_eq
  intro i hi
  simp only [opKk, encXkk, BitVec.getLsbD_extractLsb', BitVec.getLsbD_append]
  simp [hi]

/-- Format XYN is format XKK with the low byte split in two. -/
theorem encXyn_eq (f : Nibble) (x : Reg) (y : Reg) (n : Nibble) : encXyn f x y n = encXkk f x (y ++ n) := rfl

@[simp] theorem opFam_encXyn (f : Nibble) (x y : Reg) (n : Nibble) : opFam (encXyn f x y n) = f := by
  rw [encXyn_eq, opFam_encXkk]

@[simp] theorem opX_encXyn (f : Nibble) (x y : Reg) (n : Nibble) : opX (encXyn f x y n) = x := by
  rw [encXyn_eq, opX_encXkk]

@[simp] theorem opY_encXyn (f : Nibble) (x y : Reg) (n : Nibble) : opY (encXyn f x y n) = y := by
  apply BitVec.eq_of_getLsbD_eq
  intro i hi
  simp only [opY, encXyn, BitVec.getLsbD_extractLsb', BitVec.getLsbD_append]
  simp [hi, show 4 + i < 8 by omega, show ¬ 4 + i < 4 by omega]

@[simp] theorem opN_encXyn (f : Nibble) (x y : Reg) (n : Nibble) : opN (encXyn f x y n) = n := by
  apply BitVec.eq_of_getLsbD_eq
  intro i hi
  simp only [opN, encXyn, BitVec.getLsbD_extractLsb', BitVec.getLsbD_append]
  simp [hi, show i < 8 by omega]

/-- A word is its four digits. -/
theorem encXyn_fields (op : Opcode) : encXyn (opFam op) (opX op) (opY op) (opN op) = op := by
  apply BitVec.eq_of_getLsbD_eq
  intro i hi
  simp only [encXyn, opFam, opX, opY, opN, BitVec.getLsbD_append, BitVec.getLsbD_extractLsb']
  by_cases h1 : i < 8
  · by_cases h2 : i < 4
    · simp [h1, h2]
    · simp [h1, h2, show i - 4 < 4 by omega, show 4 + (i - 4) = i by omega]
  · by_cases h2 : i - 8 < 4
    · simp [h1, h2, show 8 + (i - 8) = i by omega]
    · simp [h1, h2, show i - 8 - 4 < 4 by omega, show 12 + (i - 8 - 4) = i by omega]

/-- A word is its family, `x` and low byte. -/
theorem encXkk_fields (op : Opcode) : encXkk (opFam op) (opX op) (opKk op) = op := by
  apply BitVec.eq_of_getLsbD_eq
  intro i hi
  simp only [encXkk, opFam, opX, opKk, BitVec.getLsbD_append, BitVec.getLsbD_extractLsb']
  by_cases h1 : i < 8
  · simp [h1]
  · by_cases h2 : i - 8 < 4
    · simp [h1, h2, show 8 + (i - 8) = i by omega]
    · simp [h1, h2, show i - 8 - 4 < 4 by omega, show 12 + (i - 8 - 4) = i by omega]

/-- A word is its family and address. -/
theorem encNnn_fields (op : Opcode) : encNnn (opFam op) (opNnn op) = op := by
  apply BitVec.eq_of_getLsbD_eq
  intro i hi
  simp only [encNnn, opFam, opNnn, BitVec.getLsbD_append, BitVec.getLsbD_extractLsb']
  by_cases h1 : i < 12
  · simp [h1]
  · simp [h1, show i - 12 < 4 by omega, show 12 + (i - 12) = i by omega]

/-- The two bytes of a word give the word back (20 R72). -/
@[simp] theorem opcodeOfBytes_hi_lo (op : Opcode) : opcodeOfBytes (opHi op) (opLo op) = op := by
  apply BitVec.eq_of_getLsbD_eq
  intro i hi
  simp only [opcodeOfBytes, opHi, opLo, BitVec.getLsbD_append, BitVec.getLsbD_extractLsb']
  by_cases h1 : i < 8
  · simp [h1]
  · simp [h1, show i - 8 < 8 by omega, show 8 + (i - 8) = i by omega]

/-- The word of two bytes is the high byte times 256 plus the low byte (20 R72). -/
theorem opcodeOfBytes_toNat (hi lo : Byte) : (opcodeOfBytes hi lo).toNat = hi.toNat * 256 + lo.toNat := by
  rw [opcodeOfBytes, BitVec.toNat_append, Nat.shiftLeft_eq, Nat.mul_comm, ← Nat.two_pow_add_eq_or_of_lt lo.isLt]

/-- Decoding reports UNRECOGNISED with the word itself. -/
theorem decode_eq_unrecognised {op w : Opcode} (h : decode op = .unrecognised w) : w = op := by
  unfold decode decodeWith at h
  split at h <;> simp_all

end Sys2Proof.Laws
end

