-- ==== Sys2Proof/Laws/State.lean ====
section
/-! SUPPORT. One lemma per field per update of the state, each true by rfl, so that no later proof unfolds a record
update. -/

namespace Sys2Proof.Laws
open Sys2Proof Sys2Proof.Machine

variable (s : State)

/-! ### The spec's parameters (00 R7) -/

@[simp] theorem spec_spBits : Params.spec.spBits = 5 := rfl
@[simp] theorem spec_stackPolicy : Params.spec.stackPolicy = .fault := rfl
@[simp] theorem spec_memPolicy : Params.spec.memPolicy = .fault := rfl
@[simp] theorem spec_keyPolicy : Params.spec.keyPolicy = .fault := rfl
@[simp] theorem spec_vfPriority : Params.spec.vfPriority = .flag := rfl
@[simp] theorem spec_decodeStrict : Params.spec.decodeStrict = true := rfl
@[simp] theorem spec_keyWaitPick : Params.spec.keyWaitPick = .lowest := rfl
@[simp] theorem spec_spriteMsbLeft : Params.spec.spriteMsbLeft = true := rfl
@[simp] theorem cellAt_fault (a : Nat) : cellAt .fault a = a := rfl
@[simp] theorem spanAllowed_fault (a n : Nat) : spanAllowed .fault a n = spanExists a n := rfl
@[simp] theorem spanAllowed_wrap (a n : Nat) : spanAllowed .wrap a n = true := rfl
@[simp] theorem storeBytesWith_direct (a : Nat) (bs : List Byte) :
    s.storeBytesWith .fault a bs = s.storeBytes a bs := rfl
@[simp] theorem bytesAtWith_direct (a n : Nat) : s.bytesAtWith .fault a n = s.bytesAt a n := rfl

/-! ### `setReg` -/

@[simp] theorem setReg_v (x : Reg) (b : Byte) : (s.setReg x b).v = s.v.set x.toNat b := rfl
@[simp] theorem setReg_i (x : Reg) (b : Byte) : (s.setReg x b).i = s.i := rfl
@[simp] theorem setReg_pc (x : Reg) (b : Byte) : (s.setReg x b).pc = s.pc := rfl
@[simp] theorem setReg_sp (x : Reg) (b : Byte) : (s.setReg x b).sp = s.sp := rfl
@[simp] theorem setReg_stk (x : Reg) (b : Byte) : (s.setReg x b).stk = s.stk := rfl
@[simp] theorem setReg_dt (x : Reg) (b : Byte) : (s.setReg x b).dt = s.dt := rfl
@[simp] theorem setReg_st (x : Reg) (b : Byte) : (s.setReg x b).st = s.st := rfl
@[simp] theorem setReg_fb (x : Reg) (b : Byte) : (s.setReg x b).fb = s.fb := rfl
@[simp] theorem setReg_key (x : Reg) (b : Byte) : (s.setReg x b).key = s.key := rfl
@[simp] theorem setReg_rd (x : Reg) (b : Byte) : (s.setReg x b).rd = s.rd := rfl
@[simp] theorem setReg_fault (x : Reg) (b : Byte) : (s.setReg x b).fault = s.fault := rfl
@[simp] theorem setReg_mem (x : Reg) (b : Byte) : (s.setReg x b).mem = s.mem := rfl
@[simp] theorem setReg_draws (x : Reg) (b : Byte) : (s.setReg x b).draws = s.draws := rfl
@[simp] theorem setReg_readByte (x : Reg) (b : Byte) (c : Nat) : (s.setReg x b).readByte c = s.readByte c := rfl

/-! ### `setI` -/

@[simp] theorem setI_v (w : Word) : (s.setI w).v = s.v := rfl
@[simp] theorem setI_i (w : Word) : (s.setI w).i = w := rfl
@[simp] theorem setI_pc (w : Word) : (s.setI w).pc = s.pc := rfl
@[simp] theorem setI_sp (w : Word) : (s.setI w).sp = s.sp := rfl
@[simp] theorem setI_stk (w : Word) : (s.setI w).stk = s.stk := rfl
@[simp] theorem setI_dt (w : Word) : (s.setI w).dt = s.dt := rfl
@[simp] theorem setI_st (w : Word) : (s.setI w).st = s.st := rfl
@[simp] theorem setI_fb (w : Word) : (s.setI w).fb = s.fb := rfl
@[simp] theorem setI_key (w : Word) : (s.setI w).key = s.key := rfl
@[simp] theorem setI_rd (w : Word) : (s.setI w).rd = s.rd := rfl
@[simp] theorem setI_fault (w : Word) : (s.setI w).fault = s.fault := rfl
@[simp] theorem setI_mem (w : Word) : (s.setI w).mem = s.mem := rfl
@[simp] theorem setI_draws (w : Word) : (s.setI w).draws = s.draws := rfl
@[simp] theorem setI_readByte (w : Word) (c : Nat) : (s.setI w).readByte c = s.readByte c := rfl
@[simp] theorem setI_reg (w : Word) (r : Reg) : (s.setI w).reg r = s.reg r := rfl

/-! ### `jump` -/

@[simp] theorem jump_v (w : Word) : (s.jump w).v = s.v := rfl
@[simp] theorem jump_i (w : Word) : (s.jump w).i = s.i := rfl
@[simp] theorem jump_pc (w : Word) : (s.jump w).pc = w := rfl
@[simp] theorem jump_sp (w : Word) : (s.jump w).sp = s.sp := rfl
@[simp] theorem jump_stk (w : Word) : (s.jump w).stk = s.stk := rfl
@[simp] theorem jump_dt (w : Word) : (s.jump w).dt = s.dt := rfl
@[simp] theorem jump_st (w : Word) : (s.jump w).st = s.st := rfl
@[simp] theorem jump_fb (w : Word) : (s.jump w).fb = s.fb := rfl
@[simp] theorem jump_key (w : Word) : (s.jump w).key = s.key := rfl
@[simp] theorem jump_rd (w : Word) : (s.jump w).rd = s.rd := rfl
@[simp] theorem jump_fault (w : Word) : (s.jump w).fault = s.fault := rfl
@[simp] theorem jump_mem (w : Word) : (s.jump w).mem = s.mem := rfl
@[simp] theorem jump_draws (w : Word) : (s.jump w).draws = s.draws := rfl
@[simp] theorem jump_readByte (w : Word) (c : Nat) : (s.jump w).readByte c = s.readByte c := rfl
@[simp] theorem jump_reg (w : Word) (r : Reg) : (s.jump w).reg r = s.reg r := rfl

/-! ### `advance` -/

@[simp] theorem advance_v : (s.advance).v = s.v := rfl
@[simp] theorem advance_i : (s.advance).i = s.i := rfl
@[simp] theorem advance_pc : (s.advance).pc = s.pc + 2#16 := rfl
@[simp] theorem advance_sp : (s.advance).sp = s.sp := rfl
@[simp] theorem advance_stk : (s.advance).stk = s.stk := rfl
@[simp] theorem advance_dt : (s.advance).dt = s.dt := rfl
@[simp] theorem advance_st : (s.advance).st = s.st := rfl
@[simp] theorem advance_fb : (s.advance).fb = s.fb := rfl
@[simp] theorem advance_key : (s.advance).key = s.key := rfl
@[simp] theorem advance_rd : (s.advance).rd = s.rd := rfl
@[simp] theorem advance_fault : (s.advance).fault = s.fault := rfl
@[simp] theorem advance_mem : (s.advance).mem = s.mem := rfl
@[simp] theorem advance_draws : (s.advance).draws = s.draws := rfl
@[simp] theorem advance_readByte (c : Nat) : (s.advance).readByte c = s.readByte c := rfl
@[simp] theorem advance_reg (r : Reg) : (s.advance).reg r = s.reg r := rfl

/-! ### `setFlag` -/

@[simp] theorem setFlag_v (c : Bool) : (s.setFlag c).v = s.v.set 15 (flagByte c) := rfl
@[simp] theorem setFlag_i (c : Bool) : (s.setFlag c).i = s.i := rfl
@[simp] theorem setFlag_pc (c : Bool) : (s.setFlag c).pc = s.pc := rfl
@[simp] theorem setFlag_sp (c : Bool) : (s.setFlag c).sp = s.sp := rfl
@[simp] theorem setFlag_stk (c : Bool) : (s.setFlag c).stk = s.stk := rfl
@[simp] theorem setFlag_dt (c : Bool) : (s.setFlag c).dt = s.dt := rfl
@[simp] theorem setFlag_st (c : Bool) : (s.setFlag c).st = s.st := rfl
@[simp] theorem setFlag_fb (c : Bool) : (s.setFlag c).fb = s.fb := rfl
@[simp] theorem setFlag_key (c : Bool) : (s.setFlag c).key = s.key := rfl
@[simp] theorem setFlag_rd (c : Bool) : (s.setFlag c).rd = s.rd := rfl
@[simp] theorem setFlag_fault (c : Bool) : (s.setFlag c).fault = s.fault := rfl
@[simp] theorem setFlag_mem (c : Bool) : (s.setFlag c).mem = s.mem := rfl
@[simp] theorem setFlag_draws (c : Bool) : (s.setFlag c).draws = s.draws := rfl
@[simp] theorem setFlag_readByte (c : Bool) (a : Nat) : (s.setFlag c).readByte a = s.readByte a := rfl

/-! ### `setResultAndFlag` -/

@[simp] theorem setResultAndFlag_v (pr : VfPriority) (x : Reg) (r : Byte) (c : Bool) :
    (s.setResultAndFlag pr x r c).v = match pr with
      | .flag => (s.v.set x.toNat r).set 15 (flagByte c)
      | .result => (s.v.set 15 (flagByte c)).set x.toNat r := by cases pr <;> rfl
@[simp] theorem setResultAndFlag_i (pr : VfPriority) (x : Reg) (r : Byte) (c : Bool) :
    (s.setResultAndFlag pr x r c).i = s.i := by cases pr <;> rfl
@[simp] theorem setResultAndFlag_pc (pr : VfPriority) (x : Reg) (r : Byte) (c : Bool) :
    (s.setResultAndFlag pr x r c).pc = s.pc := by cases pr <;> rfl
@[simp] theorem setResultAndFlag_sp (pr : VfPriority) (x : Reg) (r : Byte) (c : Bool) :
    (s.setResultAndFlag pr x r c).sp = s.sp := by cases pr <;> rfl
@[simp] theorem setResultAndFlag_stk (pr : VfPriority) (x : Reg) (r : Byte) (c : Bool) :
    (s.setResultAndFlag pr x r c).stk = s.stk := by cases pr <;> rfl
@[simp] theorem setResultAndFlag_dt (pr : VfPriority) (x : Reg) (r : Byte) (c : Bool) :
    (s.setResultAndFlag pr x r c).dt = s.dt := by cases pr <;> rfl
@[simp] theorem setResultAndFlag_st (pr : VfPriority) (x : Reg) (r : Byte) (c : Bool) :
    (s.setResultAndFlag pr x r c).st = s.st := by cases pr <;> rfl
@[simp] theorem setResultAndFlag_fb (pr : VfPriority) (x : Reg) (r : Byte) (c : Bool) :
    (s.setResultAndFlag pr x r c).fb = s.fb := by cases pr <;> rfl
@[simp] theorem setResultAndFlag_key (pr : VfPriority) (x : Reg) (r : Byte) (c : Bool) :
    (s.setResultAndFlag pr x r c).key = s.key := by cases pr <;> rfl
@[simp] theorem setResultAndFlag_rd (pr : VfPriority) (x : Reg) (r : Byte) (c : Bool) :
    (s.setResultAndFlag pr x r c).rd = s.rd := by cases pr <;> rfl
@[simp] theorem setResultAndFlag_fault (pr : VfPriority) (x : Reg) (r : Byte) (c : Bool) :
    (s.setResultAndFlag pr x r c).fault = s.fault := by cases pr <;> rfl
@[simp] theorem setResultAndFlag_mem (pr : VfPriority) (x : Reg) (r : Byte) (c : Bool) :
    (s.setResultAndFlag pr x r c).mem = s.mem := by cases pr <;> rfl
@[simp] theorem setResultAndFlag_draws (pr : VfPriority) (x : Reg) (r : Byte) (c : Bool) :
    (s.setResultAndFlag pr x r c).draws = s.draws := by cases pr <;> rfl
@[simp] theorem setResultAndFlag_readByte (pr : VfPriority) (x : Reg) (r : Byte) (c : Bool) (a : Nat) :
    (s.setResultAndFlag pr x r c).readByte a = s.readByte a := by cases pr <;> rfl

/-! ### `storeBytes` -/

@[simp] theorem storeBytes_v (a : Nat) (bs : List Byte) : (s.storeBytes a bs).v = s.v := rfl
@[simp] theorem storeBytes_i (a : Nat) (bs : List Byte) : (s.storeBytes a bs).i = s.i := rfl
@[simp] theorem storeBytes_pc (a : Nat) (bs : List Byte) : (s.storeBytes a bs).pc = s.pc := rfl
@[simp] theorem storeBytes_sp (a : Nat) (bs : List Byte) : (s.storeBytes a bs).sp = s.sp := rfl
@[simp] theorem storeBytes_stk (a : Nat) (bs : List Byte) : (s.storeBytes a bs).stk = s.stk := rfl
@[simp] theorem storeBytes_dt (a : Nat) (bs : List Byte) : (s.storeBytes a bs).dt = s.dt := rfl
@[simp] theorem storeBytes_st (a : Nat) (bs : List Byte) : (s.storeBytes a bs).st = s.st := rfl
@[simp] theorem storeBytes_fb (a : Nat) (bs : List Byte) : (s.storeBytes a bs).fb = s.fb := rfl
@[simp] theorem storeBytes_key (a : Nat) (bs : List Byte) : (s.storeBytes a bs).key = s.key := rfl
@[simp] theorem storeBytes_rd (a : Nat) (bs : List Byte) : (s.storeBytes a bs).rd = s.rd := rfl
@[simp] theorem storeBytes_fault (a : Nat) (bs : List Byte) : (s.storeBytes a bs).fault = s.fault := rfl
@[simp] theorem storeBytes_mem (a : Nat) (bs : List Byte) : (s.storeBytes a bs).mem = memSetBytes s.mem a bs := rfl
@[simp] theorem storeBytes_draws (a : Nat) (bs : List Byte) : (s.storeBytes a bs).draws = s.draws := rfl
@[simp] theorem storeBytes_reg (a : Nat) (bs : List Byte) (r : Reg) : (s.storeBytes a bs).reg r = s.reg r := rfl

/-! ### `storeBytesWith` -/

@[simp] theorem storeBytesWith_v (pol : MemPolicy) (a : Nat) (bs : List Byte) :
    (s.storeBytesWith pol a bs).v = s.v := rfl
@[simp] theorem storeBytesWith_i (pol : MemPolicy) (a : Nat) (bs : List Byte) :
    (s.storeBytesWith pol a bs).i = s.i := rfl
@[simp] theorem storeBytesWith_pc (pol : MemPolicy) (a : Nat) (bs : List Byte) :
    (s.storeBytesWith pol a bs).pc = s.pc := rfl
@[simp] theorem storeBytesWith_sp (pol : MemPolicy) (a : Nat) (bs : List Byte) :
    (s.storeBytesWith pol a bs).sp = s.sp := rfl
@[simp] theorem storeBytesWith_stk (pol : MemPolicy) (a : Nat) (bs : List Byte) :
    (s.storeBytesWith pol a bs).stk = s.stk := rfl
@[simp] theorem storeBytesWith_dt (pol : MemPolicy) (a : Nat) (bs : List Byte) :
    (s.storeBytesWith pol a bs).dt = s.dt := rfl
@[simp] theorem storeBytesWith_st (pol : MemPolicy) (a : Nat) (bs : List Byte) :
    (s.storeBytesWith pol a bs).st = s.st := rfl
@[simp] theorem storeBytesWith_fb (pol : MemPolicy) (a : Nat) (bs : List Byte) :
    (s.storeBytesWith pol a bs).fb = s.fb := rfl
@[simp] theorem storeBytesWith_key (pol : MemPolicy) (a : Nat) (bs : List Byte) :
    (s.storeBytesWith pol a bs).key = s.key := rfl
@[simp] theorem storeBytesWith_rd (pol : MemPolicy) (a : Nat) (bs : List Byte) :
    (s.storeBytesWith pol a bs).rd = s.rd := rfl
@[simp] theorem storeBytesWith_fault (pol : MemPolicy) (a : Nat) (bs : List Byte) :
    (s.storeBytesWith pol a bs).fault = s.fault := rfl
@[simp] theorem storeBytesWith_mem (pol : MemPolicy) (a : Nat) (bs : List Byte) :
    (s.storeBytesWith pol a bs).mem = memSetBytesWith pol s.mem a bs := rfl
@[simp] theorem storeBytesWith_draws (pol : MemPolicy) (a : Nat) (bs : List Byte) :
    (s.storeBytesWith pol a bs).draws = s.draws := rfl
@[simp] theorem storeBytesWith_reg (pol : MemPolicy) (a : Nat) (bs : List Byte) (r : Reg) :
    (s.storeBytesWith pol a bs).reg r = s.reg r := rfl

/-! ### `loadBlock` -/

@[simp] theorem loadBlock_v (pol : MemPolicy) (x : Reg) (a : Nat) :
    (s.loadBlock pol x a).v = Vector.ofFn fun k : Fin 16 =>
      if k.val ≤ x.toNat then memGet s.mem (cellAt pol (a + k.val)) else s.v[k.val] := rfl
@[simp] theorem loadBlock_i (pol : MemPolicy) (x : Reg) (a : Nat) : (s.loadBlock pol x a).i = s.i := rfl
@[simp] theorem loadBlock_pc (pol : MemPolicy) (x : Reg) (a : Nat) : (s.loadBlock pol x a).pc = s.pc := rfl
@[simp] theorem loadBlock_sp (pol : MemPolicy) (x : Reg) (a : Nat) : (s.loadBlock pol x a).sp = s.sp := rfl
@[simp] theorem loadBlock_stk (pol : MemPolicy) (x : Reg) (a : Nat) : (s.loadBlock pol x a).stk = s.stk := rfl
@[simp] theorem loadBlock_dt (pol : MemPolicy) (x : Reg) (a : Nat) : (s.loadBlock pol x a).dt = s.dt := rfl
@[simp] theorem loadBlock_st (pol : MemPolicy) (x : Reg) (a : Nat) : (s.loadBlock pol x a).st = s.st := rfl
@[simp] theorem loadBlock_fb (pol : MemPolicy) (x : Reg) (a : Nat) : (s.loadBlock pol x a).fb = s.fb := rfl
@[simp] theorem loadBlock_key (pol : MemPolicy) (x : Reg) (a : Nat) : (s.loadBlock pol x a).key = s.key := rfl
@[simp] theorem loadBlock_rd (pol : MemPolicy) (x : Reg) (a : Nat) : (s.loadBlock pol x a).rd = s.rd := rfl
@[simp] theorem loadBlock_fault (pol : MemPolicy) (x : Reg) (a : Nat) : (s.loadBlock pol x a).fault = s.fault := rfl
@[simp] theorem loadBlock_mem (pol : MemPolicy) (x : Reg) (a : Nat) : (s.loadBlock pol x a).mem = s.mem := rfl
@[simp] theorem loadBlock_draws (pol : MemPolicy) (x : Reg) (a : Nat) : (s.loadBlock pol x a).draws = s.draws := rfl
@[simp] theorem loadBlock_readByte (pol : MemPolicy) (x : Reg) (a : Nat) (c : Nat) : (s.loadBlock pol x a).readByte c = s.readByte c := rfl

/-! ### `tick` -/

@[simp] theorem tick_v : (s.tick).v = s.v := rfl
@[simp] theorem tick_i : (s.tick).i = s.i := rfl
@[simp] theorem tick_pc : (s.tick).pc = s.pc := rfl
@[simp] theorem tick_sp : (s.tick).sp = s.sp := rfl
@[simp] theorem tick_stk : (s.tick).stk = s.stk := rfl
@[simp] theorem tick_dt : (s.tick).dt = countDown s.dt := rfl
@[simp] theorem tick_st : (s.tick).st = countDown s.st := rfl
@[simp] theorem tick_fb : (s.tick).fb = s.fb := rfl
@[simp] theorem tick_key : (s.tick).key = s.key := rfl
@[simp] theorem tick_rd : (s.tick).rd = s.rd := rfl
@[simp] theorem tick_fault : (s.tick).fault = s.fault := rfl
@[simp] theorem tick_mem : (s.tick).mem = s.mem := rfl
@[simp] theorem tick_draws : (s.tick).draws = s.draws := rfl
@[simp] theorem tick_readByte (c : Nat) : (s.tick).readByte c = s.readByte c := rfl
@[simp] theorem tick_reg (r : Reg) : (s.tick).reg r = s.reg r := rfl

/-! ### `setKey` -/

@[simp] theorem setKey_v (i : Fin 16) (b : Bool) : (s.setKey i b).v = s.v := rfl
@[simp] theorem setKey_i (i : Fin 16) (b : Bool) : (s.setKey i b).i = s.i := rfl
@[simp] theorem setKey_pc (i : Fin 16) (b : Bool) : (s.setKey i b).pc = s.pc := rfl
@[simp] theorem setKey_sp (i : Fin 16) (b : Bool) : (s.setKey i b).sp = s.sp := rfl
@[simp] theorem setKey_stk (i : Fin 16) (b : Bool) : (s.setKey i b).stk = s.stk := rfl
@[simp] theorem setKey_dt (i : Fin 16) (b : Bool) : (s.setKey i b).dt = s.dt := rfl
@[simp] theorem setKey_st (i : Fin 16) (b : Bool) : (s.setKey i b).st = s.st := rfl
@[simp] theorem setKey_fb (i : Fin 16) (b : Bool) : (s.setKey i b).fb = s.fb := rfl
@[simp] theorem setKey_key (i : Fin 16) (b : Bool) : (s.setKey i b).key = s.key.set i.val b := rfl
@[simp] theorem setKey_rd (i : Fin 16) (b : Bool) : (s.setKey i b).rd = s.rd := rfl
@[simp] theorem setKey_fault (i : Fin 16) (b : Bool) : (s.setKey i b).fault = s.fault := rfl
@[simp] theorem setKey_mem (i : Fin 16) (b : Bool) : (s.setKey i b).mem = s.mem := rfl
@[simp] theorem setKey_draws (i : Fin 16) (b : Bool) : (s.setKey i b).draws = s.draws := rfl
@[simp] theorem setKey_readByte (i : Fin 16) (b : Bool) (c : Nat) : (s.setKey i b).readByte c = s.readByte c := rfl
@[simp] theorem setKey_reg (i : Fin 16) (b : Bool) (r : Reg) : (s.setKey i b).reg r = s.reg r := rfl

/-! ### `clearRedraw` -/

@[simp] theorem clearRedraw_v : (s.clearRedraw).v = s.v := rfl
@[simp] theorem clearRedraw_i : (s.clearRedraw).i = s.i := rfl
@[simp] theorem clearRedraw_pc : (s.clearRedraw).pc = s.pc := rfl
@[simp] theorem clearRedraw_sp : (s.clearRedraw).sp = s.sp := rfl
@[simp] theorem clearRedraw_stk : (s.clearRedraw).stk = s.stk := rfl
@[simp] theorem clearRedraw_dt : (s.clearRedraw).dt = s.dt := rfl
@[simp] theorem clearRedraw_st : (s.clearRedraw).st = s.st := rfl
@[simp] theorem clearRedraw_fb : (s.clearRedraw).fb = s.fb := rfl
@[simp] theorem clearRedraw_key : (s.clearRedraw).key = s.key := rfl
@[simp] theorem clearRedraw_rd : (s.clearRedraw).rd = false := rfl
@[simp] theorem clearRedraw_fault : (s.clearRedraw).fault = s.fault := rfl
@[simp] theorem clearRedraw_mem : (s.clearRedraw).mem = s.mem := rfl
@[simp] theorem clearRedraw_draws : (s.clearRedraw).draws = s.draws := rfl
@[simp] theorem clearRedraw_readByte (c : Nat) : (s.clearRedraw).readByte c = s.readByte c := rfl
@[simp] theorem clearRedraw_reg (r : Reg) : (s.clearRedraw).reg r = s.reg r := rfl

/-! ### `skipIf` -/

@[simp] theorem skipIf_v (c : Bool) : (s.skipIf c).v = s.v := by cases c <;> rfl
@[simp] theorem skipIf_i (c : Bool) : (s.skipIf c).i = s.i := by cases c <;> rfl
@[simp] theorem skipIf_pc (c : Bool) : (s.skipIf c).pc = s.pc + (if c then 4#16 else 2#16) := by
  cases c <;> simp [State.skipIf, State.npc, BitVec.add_assoc]
@[simp] theorem skipIf_sp (c : Bool) : (s.skipIf c).sp = s.sp := by cases c <;> rfl
@[simp] theorem skipIf_stk (c : Bool) : (s.skipIf c).stk = s.stk := by cases c <;> rfl
@[simp] theorem skipIf_dt (c : Bool) : (s.skipIf c).dt = s.dt := by cases c <;> rfl
@[simp] theorem skipIf_st (c : Bool) : (s.skipIf c).st = s.st := by cases c <;> rfl
@[simp] theorem skipIf_fb (c : Bool) : (s.skipIf c).fb = s.fb := by cases c <;> rfl
@[simp] theorem skipIf_key (c : Bool) : (s.skipIf c).key = s.key := by cases c <;> rfl
@[simp] theorem skipIf_rd (c : Bool) : (s.skipIf c).rd = s.rd := by cases c <;> rfl
@[simp] theorem skipIf_fault (c : Bool) : (s.skipIf c).fault = s.fault := by cases c <;> rfl
@[simp] theorem skipIf_mem (c : Bool) : (s.skipIf c).mem = s.mem := by cases c <;> rfl
@[simp] theorem skipIf_draws (c : Bool) : (s.skipIf c).draws = s.draws := by cases c <;> rfl
@[simp] theorem skipIf_readByte (c : Bool) (a : Nat) : (s.skipIf c).readByte a = s.readByte a := by cases c <;> rfl
@[simp] theorem skipIf_reg (c : Bool) (r : Reg) : (s.skipIf c).reg r = s.reg r := by cases c <;> rfl

/-- A skip moves the program counter and nothing else (40 R140). -/
theorem skipIf_eq (c : Bool) : s.skipIf c = { s with pc := s.pc + (if c then 4#16 else 2#16) } := by
  cases c
  · rfl
  · simp [State.skipIf, State.npc, State.jump, BitVec.add_assoc]

/-- A fault changes the latch and nothing else (60 R252). -/
theorem raise_eq (f : Fault) : raise f s = .next { s with fault := f.code } := rfl

end Sys2Proof.Laws
end

