-- ==== Sys2Proof/Laws/Memory.lean ====
section
/-! SUPPORT. The laws of memory: a read after a write, and that every memory operation keeps the canonical form. -/

namespace Sys2Proof.Laws
open Sys2Proof Sys2Proof.Machine

theorem memGet_insertCell (m : Memory) (a c : Nat) (b : Byte) (h : ∀ p ∈ m, p.1 ≠ a) :
    memGet (insertCell a b m) c = if c = a then b else memGet m c := by
  induction m with
  | nil => simp [insertCell, memGet]
  | cons p m ih =>
    obtain ⟨k, d⟩ := p
    have hk : k ≠ a := h (k, d) (by simp)
    have hm : ∀ p ∈ m, p.1 ≠ a := fun p hp => h p (by simp [hp])
    simp only [insertCell]
    split
    · simp [memGet]
    · simp only [memGet, ih hm]
      by_cases hc : c = a
      · subst hc; simp [Ne.symm hk]
      · simp [hc]

theorem memGet_filter (m : Memory) (a c : Nat) :
    memGet (m.filter fun p => p.1 != a) c = if c = a then unlistedByte a else memGet m c := by
  induction m with
  | nil => by_cases h : c = a <;> simp [memGet, h]
  | cons p m ih =>
    obtain ⟨k, d⟩ := p
    by_cases hk : k = a
    · subst hk
      simp only [List.filter_cons, bne_self_eq_false, Bool.false_eq_true, if_false, ih, memGet]
      by_cases hc : c = k <;> simp [hc]
    · simp only [List.filter_cons, bne_iff_ne, ne_eq, hk, not_false_eq_true, if_true, memGet, ih]
      by_cases hc : c = a
      · subst hc; simp [Ne.symm hk]
      · simp [hc]

/-- A read after a write of one byte (20 R77). -/
theorem memGet_memSet (m : Memory) (a c : Nat) (b : Byte) :
    memGet (memSet m a b) c = if c = a ∧ a < Config.memSize then b else memGet m c := by
  unfold memSet
  by_cases ha : a < Config.memSize
  · simp only [ha, if_true, and_true]
    split
    · rename_i hb
      rw [memGet_filter, hb]
    · rw [memGet_insertCell _ _ _ _ (by intro p hp; simpa using (List.mem_filter.mp hp).2), memGet_filter]
      by_cases hc : c = a <;> simp [hc]
  · simp [ha]

@[simp] theorem memSetBytes_nil (m : Memory) (a : Nat) : memSetBytes m a [] = m := rfl

theorem memSetBytes_cons (m : Memory) (a : Nat) (b : Byte) (bs : List Byte) :
    memSetBytes m a (b :: bs) = memSetBytes (memSet m a b) (a + 1) bs := rfl

/-- A read after bytes are written at ascending addresses (20 R73). -/
theorem memGet_memSetBytes (m : Memory) (a c : Nat) (bs : List Byte) (h : a + bs.length ≤ Config.memSize) :
    memGet (memSetBytes m a bs) c =
      if hc : a ≤ c ∧ c - a < bs.length then bs[c - a]'hc.2 else memGet m c := by
  induction bs generalizing m a with
  | nil => simp
  | cons b bs ih =>
    simp only [List.length_cons] at h
    rw [memSetBytes_cons, ih _ _ (by omega), memGet_memSet]
    by_cases hca : c = a
    · subst hca
      have : c < Config.memSize := by omega
      rw [dif_neg (by omega)]
      simp [this]
    · by_cases hlt : a + 1 ≤ c
      · have hsub : c - a = (c - (a + 1)) + 1 := by omega
        by_cases hin : c - (a + 1) < bs.length
        · have h1 : a ≤ c ∧ c - a < (b :: bs).length := by simp; omega
          rw [dif_pos ⟨hlt, hin⟩, dif_pos h1]
          simp only [hsub, List.getElem_cons_succ]
        · have h1 : ¬ (a ≤ c ∧ c - a < (b :: bs).length) := by simp; omega
          rw [dif_neg (by omega), dif_neg h1]; simp [hca]
      · have h1 : ¬ (a ≤ c ∧ c - a < (b :: bs).length) := by omega
        rw [dif_neg (by omega), dif_neg h1]; simp [hca]

theorem mem_insertCell {m : Memory} {a : Nat} {b : Byte} {p : Host.Cell} (h : p ∈ insertCell a b m) :
    p = (a, b) ∨ p ∈ m := by
  induction m with
  | nil => simpa [insertCell] using h
  | cons q m ih =>
    obtain ⟨k, d⟩ := q
    simp only [insertCell] at h
    split at h
    · simpa using h
    · rcases List.mem_cons.mp h with rfl | h
      · simp
      · rcases ih h with h | h
        · exact .inl h
        · simp [h]

theorem pairwise_insertCell {m : Memory} {a : Nat} {b : Byte} (hm : m.Pairwise fun p q => p.1 < q.1)
    (h : ∀ p ∈ m, p.1 ≠ a) : (insertCell a b m).Pairwise fun p q => p.1 < q.1 := by
  induction m with
  | nil => simp [insertCell]
  | cons q m ih =>
    obtain ⟨k, d⟩ := q
    have hk : k ≠ a := h (k, d) (by simp)
    obtain ⟨h1, h2⟩ := List.pairwise_cons.mp hm
    simp only [insertCell]
    split
    · rename_i hlt
      refine List.pairwise_cons.mpr ⟨?_, hm⟩
      intro p hp
      rcases List.mem_cons.mp hp with rfl | hp
      · exact hlt
      · exact Nat.lt_trans hlt (h1 p hp)
    · rename_i hge
      refine List.pairwise_cons.mpr ⟨?_, ih h2 fun p hp => h p (by simp [hp])⟩
      intro p hp
      rcases mem_insertCell hp with rfl | hp
      · show k < a
        omega
      · exact h1 p hp

/-- Writing a byte keeps the canonical form. -/
theorem wf_memSet {m : Memory} (a : Nat) (b : Byte) (h : Memory.wf m) : Memory.wf (memSet m a b) := by
  obtain ⟨hs, hc⟩ := h
  have hf : (m.filter fun p => p.1 != a).Pairwise fun p q => p.1 < q.1 := hs.filter _
  have hcf : ∀ p ∈ m.filter (fun p => p.1 != a), p.1 < Config.memSize ∧ p.2 ≠ unlistedByte p.1 :=
    fun p hp => hc p (List.mem_filter.mp hp).1
  unfold memSet
  split
  · rename_i ha
    dsimp only
    split
    · exact ⟨hf, hcf⟩
    · rename_i hb
      refine ⟨pairwise_insertCell hf (by intro p hp; simpa using (List.mem_filter.mp hp).2), ?_⟩
      intro p hp
      rcases mem_insertCell hp with rfl | hp
      · exact ⟨ha, hb⟩
      · exact hcf p hp
  · exact ⟨hs, hc⟩

/-- Writing bytes keeps the canonical form. -/
theorem wf_memSetBytesWith {m : Memory} (pol : MemPolicy) (a : Nat) (bs : List Byte) (h : Memory.wf m) :
    Memory.wf (memSetBytesWith pol m a bs) := by
  induction bs generalizing m a with
  | nil => exact h
  | cons b bs ih => exact ih _ (wf_memSet _ b h)

/-- Writing bytes keeps the canonical form. -/
theorem wf_memSetBytes {m : Memory} (a : Nat) (bs : List Byte) (h : Memory.wf m) : Memory.wf (memSetBytes m a bs) :=
  wf_memSetBytesWith .fault a bs h

/-- `State.reset`'s memory is in the canonical form. -/
theorem wf_reset : Memory.wf State.reset.mem := by decide

/-- Two memories in the canonical form that read alike are equal. -/
theorem memory_ext {m n : Memory} (hm : Memory.wf m) (hn : Memory.wf n) (h : ∀ a, memGet m a = memGet n a) : m = n := by
  have below : ∀ (l : Memory) (a : Nat), (∀ p ∈ l, a < p.1) → memGet l a = unlistedByte a := by
    intro l a
    induction l with
    | nil => intro _; rfl
    | cons p l ih =>
      intro hl
      have := hl p (by simp)
      simp only [memGet]
      rw [if_neg (by omega)]
      exact ih fun q hq => hl q (by simp [hq])
  induction m generalizing n with
  | nil =>
    cases n with
    | nil => rfl
    | cons q n =>
      have := h q.1
      simp only [memGet, if_true] at this
      exact absurd this.symm (hn.2 q (by simp)).2
  | cons p m ih =>
    obtain ⟨hp, hpm⟩ := List.pairwise_cons.mp hm.1
    cases n with
    | nil =>
      have := h p.1
      simp only [memGet, if_true] at this
      exact absurd this (hm.2 p (by simp)).2
    | cons q n =>
      obtain ⟨hq, hqn⟩ := List.pairwise_cons.mp hn.1
      have hpq : p.1 = q.1 := by
        rcases Nat.lt_trichotomy p.1 q.1 with hlt | heq | hgt
        · have h1 := h p.1
          rw [below (q :: n) p.1 (by
            intro r hr
            rcases List.mem_cons.mp hr with rfl | hr
            · exact hlt
            · exact Nat.lt_trans hlt (hq r hr))] at h1
          simp only [memGet, if_true] at h1
          exact absurd h1 (hm.2 p (by simp)).2
        · exact heq
        · have h1 := h q.1
          rw [below (p :: m) q.1 (by
            intro r hr
            rcases List.mem_cons.mp hr with rfl | hr
            · exact hgt
            · exact Nat.lt_trans hgt (hp r hr))] at h1
          simp only [memGet, if_true] at h1
          exact absurd h1.symm (hn.2 q (by simp)).2
      have hb : p.2 = q.2 := by
        have h1 := h p.1
        simpa [memGet, hpq] using h1
      have htail : m = n := by
        refine ih ⟨hpm, fun c hc => hm.2 c (by simp [hc])⟩ ⟨hqn, fun c hc => hn.2 c (by simp [hc])⟩ ?_
        intro a
        by_cases ha : a = p.1
        · subst ha
          rw [below m p.1 hp, below n p.1 (by rw [hpq]; exact hq)]
        · have h1 := h a
          have ha' : a ≠ q.1 := hpq ▸ ha
          simpa [memGet, ha, ha'] using h1
      rw [htail]
      congr 1
      exact Prod.ext hpq hb

end Sys2Proof.Laws
end

