-- ==== Sys2Proof/Laws/Regs.lean ====
section
/-! SUPPORT. What reading a register gives after each operation that writes registers, and what the flag
computations mean over the integers. -/

namespace Sys2Proof.Laws
open Sys2Proof Sys2Proof.Machine

/-- A read after a write of a register (10 R30). -/
theorem reg_setReg (s : State) (x r : Reg) (b : Byte) :
    (s.setReg x b).reg r = if r = x then b else s.reg r := by
  simp only [State.reg, State.setReg, Vector.getElem_set, BitVec.toNat_inj]
  by_cases h : x = r
  · simp [h]
  · simp [h, Ne.symm h]

@[simp] theorem reg_setReg_self (s : State) (x : Reg) (b : Byte) : (s.setReg x b).reg x = b := by
  simp [reg_setReg]

theorem reg_setReg_of_ne (s : State) {x r : Reg} (b : Byte) (h : r ≠ x) : (s.setReg x b).reg r = s.reg r := by
  simp [reg_setReg, h]

/-- A read after the flag is written (10 R31). -/
theorem reg_setFlag (s : State) (r : Reg) (c : Bool) :
    (s.setFlag c).reg r = if r = VF then flagByte c else s.reg r :=
  reg_setReg s VF r _

/-- A read after a result and a flag are written: the flag landed last (41 R173). -/
theorem reg_setResultAndFlag (s : State) (x r : Reg) (b : Byte) (c : Bool) :
    (s.setResultAndFlag .flag x b c).reg r = if r = VF then flagByte c else if r = x then b else s.reg r := by
  show ((s.setReg x b).setFlag c).reg r = _
  rw [reg_setFlag, reg_setReg]

/-- A read after a block of registers is loaded (42 R195). -/
theorem reg_loadBlock (pol : MemPolicy) (s : State) (x r : Reg) (a : Nat) :
    (s.loadBlock pol x a).reg r =
      if r.toNat ≤ x.toNat then memGet s.mem (cellAt pol (a + r.toNat)) else s.reg r := by
  simp [State.reg, State.loadBlock]

/-- Two states with the same register reads have the same registers. -/
theorem v_ext {s t : State} (h : ∀ r, s.reg r = t.reg r) : s.v = t.v := by
  apply Vector.ext
  intro k hk
  have := h (BitVec.ofNat 4 k)
  simpa [State.reg, Nat.mod_eq_of_lt hk] using this

theorem flagByte_toNat (c : Bool) : (flagByte c).toNat = if c then 1 else 0 := by cases c <;> rfl

end Sys2Proof.Laws
end

