-- ==== Sys2Proof/Laws/Ops.lean ====
section
/-! SUPPORT. What the shared operations do: stack, keypad, operands, fetch. -/

namespace Sys2Proof.Laws
open Sys2Proof Sys2Proof.Machine

/-! ### Stack -/

/-- All a push can do, at any parameters: write the entry the pointer names and move the pointer (40 R134, 00 R7). -/
theorem push_eq_some {p : Params} {s t : State} {w : Word} (h : s.push p w = some t) :
    ∃ k, pushEntry p s.sp = some k ∧ t = { s with stk := s.stk.set k.val w, sp := spAfterPush p k } := by
  unfold State.push at h
  split at h
  · cases h
  · exact ⟨_, ‹_›, (Option.some.inj h).symm⟩

/-- All a pop can do, at any parameters: read an entry and move the pointer to it (40 R132, 00 R7). -/
theorem pop_eq_some {p : Params} {s t : State} {w : Word} (h : s.pop p = some (w, t)) :
    ∃ k, popEntry p s.sp = some k ∧ w = s.stk[k.val] ∧ t = { s with sp := k.castSucc } := by
  unfold State.pop at h
  split at h
  · cases h
  · cases h; exact ⟨_, ‹_›, rfl, rfl⟩

/-- A full stack takes no push (40 R134). -/
theorem push_full {s : State} (w : Word) (h : s.sp.val = 16) : s.push Params.spec w = none := by
  simp [State.push, pushEntry, h]

/-- A push with room (40 R134): it succeeds, and this is all it does. -/
theorem push_room {s : State} (w : Word) (h : s.sp.val < 16) :
    s.push Params.spec w =
      some { s with stk := s.stk.set s.sp.val w, sp := ⟨s.sp.val + 1, Nat.succ_lt_succ h⟩ } := by
  have hm : (s.sp.val + 1) % 32 = s.sp.val + 1 := Nat.mod_eq_of_lt (by omega)
  simp [State.push, pushEntry, spAfterPush, h, hm]

/-- An empty stack gives no pop (40 R132). -/
theorem pop_empty {s : State} (h : s.sp.val = 0) : s.pop Params.spec = none := by
  simp [State.pop, popEntry, h]

/-- A pop of a nonempty stack (40 R132): it succeeds, and this is all it does. -/
theorem pop_nonempty {s : State} (h : s.sp.val ≠ 0) :
    s.pop Params.spec = some (s.stk[s.sp.val - 1]'(by have := s.sp.isLt; omega),
      { s with sp := ⟨s.sp.val - 1, by have := s.sp.isLt; omega⟩ }) := by
  simp only [State.pop, popEntry, h, if_false]
  rfl

/-! ### Keypad -/

/-- A key index below 16 reads that key, whatever the policy (44 R230). -/
theorem keyAt_of_lt {pol : KeyPolicy} {s : State} {b : Byte} (h : b.toNat < 16) :
    s.keyAt pol b = some s.key[b.toNat] := by
  simp [State.keyAt, h]

/-- A key index above 15 reads nothing (44 R230). -/
theorem keyAt_of_ge {s : State} {b : Byte} (h : 16 ≤ b.toNat) : s.keyAt .fault b = none := by
  simp [State.keyAt, show ¬ b.toNat < 16 by omega]

theorem mem_pressedKeys {s : State} {k : Fin 16} : k ∈ s.pressedKeys ↔ s.key[k.val] = true := by
  simp [State.pressedKeys]

/-- `Fx0A` sees no hit exactly when no key is down, whichever key it picks (44 R232). -/
theorem keyHit_none {pick : KeyPick} {s : State} : s.keyHit pick = none ↔ ∀ k : Fin 16, s.key[k.val] = false := by
  have hempty : s.pressedKeys = [] ↔ ∀ k : Fin 16, s.key[k.val] = false := by
    rw [State.pressedKeys, List.filter_eq_nil_iff]
    simp
  rw [← hempty]
  cases pick with
  | lowest => exact List.head?_eq_none_iff
  | highest => exact List.getLast?_eq_none_iff
  | nth k =>
    show s.pressedKeys[k % s.pressedKeys.length]? = none ↔ _
    rw [List.getElem?_eq_none_iff]
    constructor
    · intro h
      rcases Nat.eq_zero_or_pos s.pressedKeys.length with h0 | h0
      · exact List.length_eq_zero_iff.mp h0
      · exact absurd (Nat.mod_lt k h0) (Nat.not_lt.mpr h)
    · intro h; simp [h]

/-- A hit is a pressed key, whichever key `Fx0A` picks (44 R232). -/
theorem keyHit_pressed {pick : KeyPick} {s : State} {k : Fin 16} (h : s.keyHit pick = some k) :
    s.key[k.val] = true := by
  rw [← mem_pressedKeys]
  cases pick with
  | lowest => exact List.mem_of_head? h
  | highest => exact List.mem_of_getLast? h
  | nth n => exact List.mem_of_getElem? h

/-- The lowest hit has no pressed key below it (44 R232, D12). -/
theorem keyHit_some {s : State} {k : Fin 16} (h : s.keyHit .lowest = some k) :
    s.key[k.val] = true ∧ ∀ j : Fin 16, j < k → s.key[j.val] = false := by
  have h' : s.pressedKeys.head? = some k := h
  rw [State.pressedKeys, List.head?_filter, List.find?_eq_some_iff_append] at h'
  obtain ⟨hk, as, bs, hab, hbefore⟩ := h'
  refine ⟨hk, fun j hj => ?_⟩
  have hmem : j ∈ List.finRange 16 := List.mem_finRange j
  have hsorted : (List.finRange 16).Pairwise (· < ·) := List.pairwise_lt_finRange 16
  rw [hab] at hmem hsorted
  rcases List.mem_append.mp hmem with h1 | h1
  · simpa using hbefore j h1
  · rcases List.mem_cons.mp h1 with rfl | h2
    · exact absurd hj (Fin.lt_irrefl _)
    · have := (List.pairwise_append.mp hsorted).2.1
      exact absurd hj (Fin.lt_asymm ((List.pairwise_cons.mp this).1 j h2))

/-! ### Operands -/

/-- The check of 20 R75 over the integers: no byte, or the last byte at or below 0xFFF. -/
theorem spanExists_iff {a n : Nat} : spanExists a n = true ↔ n = 0 ∨ a + n ≤ 0x1000 := by
  simp only [spanExists, Bool.or_eq_true, beq_iff_eq, decide_eq_true_eq]
  omega

@[simp] theorem length_regBlock (s : State) (x : Reg) : (s.regBlock x).length = x.toNat + 1 := by
  have := x.isLt
  simp [State.regBlock, blockLen]
  omega

theorem getElem_regBlock (s : State) (x : Reg) {k : Nat} (h : k < (s.regBlock x).length) :
    (s.regBlock x)[k] = s.reg (BitVec.ofNat 4 k) := by
  have hk : k < 16 := by have := x.isLt; simp at h; omega
  simp [State.regBlock, State.reg, Nat.mod_eq_of_lt hk]

@[simp] theorem length_bcdDigits (b : Byte) : (bcdDigits b).length = 3 := rfl

@[simp] theorem length_bytesAt (s : State) (a n : Nat) : (s.bytesAt a n).length = n := by
  simp [State.bytesAt, State.bytesAtWith]

theorem getElem_bytesAt (s : State) {a n k : Nat} (h : k < (s.bytesAt a n).length) :
    (s.bytesAt a n)[k] = memGet s.mem (a + k) := by
  simp [State.bytesAt, State.bytesAtWith]

/-- Reading a byte after bytes are stored inside memory (20 R73, R77). -/
theorem readByte_storeBytes (s : State) (a c : Nat) (bs : List Byte) (h : a + bs.length ≤ Config.memSize) :
    (s.storeBytes a bs).readByte c =
      if hc : a ≤ c ∧ c - a < bs.length then some (bs[c - a]'hc.2) else s.readByte c := by
  simp only [State.readByte, storeBytes_mem, memGet_memSetBytes _ _ _ _ h]
  by_cases hc : a ≤ c ∧ c - a < bs.length
  · rw [dif_pos hc, if_pos (by omega), dif_pos hc]
  · rw [dif_neg hc, dif_neg hc]

/-! ### Fetch -/

/-- A fetch inside memory reads the two bytes at `pc`, the first the high half (20 R72, R74). -/
theorem fetch_of_le {s : State} (h : s.pc.toNat ≤ 0xFFE) :
    s.fetch = some (opcodeOfBytes (memGet s.mem s.pc.toNat) (memGet s.mem (s.pc.toNat + 1))) := by
  have : spanExists s.pc.toNat 2 = true := spanExists_iff.mpr (by omega)
  simp [State.fetch, State.fetchWith, this]

/-- A fetch past 0xFFE reads nothing (20 R75). -/
theorem fetch_of_gt {s : State} (h : s.pc.toNat > 0xFFE) : s.fetch = none := by
  have : spanExists s.pc.toNat 2 = false := by
    rw [← Bool.not_eq_true, spanExists_iff]; omega
  simp [State.fetch, State.fetchWith, this]

/-- What a cycle runs is the fetched word, decoded (40 R130). -/
theorem fetched_eq (s : State) : s.fetched = s.fetch.map decode := rfl

end Sys2Proof.Laws
end

