-- ==== Sys2Proof/Laws/Display.lean ====
section
/-! SUPPORT. What the pixel writer does: one toggle, one row, a whole sprite (43_display.md rules R211 to R214). -/

namespace Sys2Proof.Laws
open Sys2Proof Sys2Proof.Machine

/-- A toggle flips the pixel it names, both coordinates wrapping, and no other (43 R214). -/
theorem pixel_toggle (fb : Framebuffer) (cx cy px py : Nat) :
    Framebuffer.pixel (Framebuffer.toggle fb cx cy) px py =
      (Framebuffer.pixel fb px py ^^ (px % 64 == cx % 64 && py % 32 == cy % 32)) := by
  simp only [Framebuffer.pixel, Framebuffer.toggle, Vector.getElem_set]
  by_cases hx : cx % 64 = px % 64
  · by_cases hy : cy % 32 = py % 32
    · simp [hx, hy]
    · simp [hx, hy, beq_eq_false_iff_ne.mpr (Ne.symm hy)]
  · simp [hx, beq_eq_false_iff_ne.mpr (Ne.symm hx)]

/-- Two framebuffers with the same pixels are the same. -/
theorem framebuffer_ext {f g : Framebuffer}
    (h : ∀ cx cy, cx < 64 → cy < 32 → Framebuffer.pixel f cx cy = Framebuffer.pixel g cx cy) : f = g := by
  apply Vector.ext
  intro i hi
  apply Vector.ext
  intro j hj
  simpa [Framebuffer.pixel, Nat.mod_eq_of_lt hi, Nat.mod_eq_of_lt hj] using h i j hi hj

/-- A cleared framebuffer has every pixel off (43 R210). -/
@[simp] theorem pixel_clear (cx cy : Nat) :
    Framebuffer.pixel (Vector.replicate 64 (Vector.replicate 32 false)) cx cy = false := by
  simp [Framebuffer.pixel]

/-- Whether a sprite row drawn at column `cx` has a 1 bit for screen column `px` among the columns `cs`
(43 R213, R214). -/
def colHit (m : Bool) (cx : Nat) (b : Byte) (px : Nat) (cs : List Nat) : Bool :=
  cs.any fun c => spriteBit m b c && px % 64 == (cx + c) % 64

theorem colHit_iff {m : Bool} {cx px : Nat} {b : Byte} {cs : List Nat} :
    colHit m cx b px cs = true ↔ ∃ c ∈ cs, spriteBit m b c = true ∧ px % 64 = (cx + c) % 64 := by
  simp [colHit]

/-- The fold over some columns of one row: the pixels hit are flipped, and the collision bit gathers those that were
on, where no two of the columns meet around the edge (43 R212, R214). -/
theorem plotCols (m : Bool) (cx cy : Nat) (b : Byte) (cs : List Nat) (hcs : cs.Pairwise fun c d => (cx + c) % 64 ≠ (cx + d) % 64)
    (cv : Canvas) :
    (∀ px py, Framebuffer.pixel (cs.foldl (fun cv c => if spriteBit m b c then cv.plot (cx + c) cy else cv) cv).fb px py =
      (Framebuffer.pixel cv.fb px py ^^ (py % 32 == cy % 32 && colHit m cx b px cs))) ∧
    (cs.foldl (fun cv c => if spriteBit m b c then cv.plot (cx + c) cy else cv) cv).coll =
      (cv.coll || cs.any fun c => spriteBit m b c && Framebuffer.pixel cv.fb (cx + c) cy) := by
  induction cs generalizing cv with
  | nil => simp [colHit]
  | cons c cs ih =>
    obtain ⟨hc, hcs⟩ := List.pairwise_cons.mp hcs
    by_cases hb : spriteBit m b c = true
    · simp only [List.foldl_cons, hb, if_true]
      obtain ⟨ih1, ih2⟩ := ih hcs (cv.plot (cx + c) cy)
      refine ⟨fun px py => ?_, ?_⟩
      · rw [ih1]
        simp only [Canvas.plot, pixel_toggle, colHit, List.any_cons, hb, Bool.true_and]
        by_cases hpx : px % 64 = (cx + c) % 64
        · have hrest : colHit m cx b px cs = false := by
            rw [← Bool.not_eq_true, colHit_iff]
            rintro ⟨d, hd, -, h⟩
            exact hc d hd (hpx ▸ h)
          rw [colHit] at hrest
          rw [hrest]
          simp [hpx]
        · simp [beq_eq_false_iff_ne.mpr hpx]
      · rw [ih2]
        simp only [Canvas.plot, List.any_cons, hb, Bool.true_and, pixel_toggle]
        rw [Bool.or_assoc]
        congr 2
        rw [Bool.eq_iff_iff, List.any_eq_true, List.any_eq_true]
        constructor <;> rintro ⟨d, hd, h⟩ <;> refine ⟨d, hd, ?_⟩ <;> simpa [beq_eq_false_iff_ne.mpr (Ne.symm (hc d hd))] using h
    · simp only [List.foldl_cons, hb, if_false, Bool.false_eq_true]
      obtain ⟨ih1, ih2⟩ := ih hcs cv
      refine ⟨fun px py => ?_, ?_⟩
      · rw [ih1]; simp [colHit, hb]
      · rw [ih2]; simp [hb]

/-- The eight columns of a sprite row are distinct around the edge (43 R214). -/
theorem columns_distinct (cx : Nat) : (List.range 8).Pairwise fun c d => (cx + c) % 64 ≠ (cx + d) % 64 := by
  have h : ∀ c ∈ List.range 8, ∀ d ∈ List.range 8, c ≠ d → (cx + c) % 64 ≠ (cx + d) % 64 := by
    intro c hc d hd hne
    have := List.mem_range.mp hc
    have := List.mem_range.mp hd
    omega
  have hn : (List.range 8).Pairwise fun c d => c ≠ d := by decide
  exact hn.imp_of_mem fun hc hd hne => h _ hc _ hd hne

/-- One sprite row: the pixels it flips (43 R211, R214). -/
theorem pixel_plotRow (m : Bool) (cv : Canvas) (cx cy : Nat) (b : Byte) (px py : Nat) :
    Framebuffer.pixel (cv.plotRow m cx cy b).fb px py =
      (Framebuffer.pixel cv.fb px py ^^ (py % 32 == cy % 32 && colHit m cx b px (List.range 8))) :=
  (plotCols m cx cy b _ (columns_distinct cx) cv).1 px py

/-- One sprite row: what it adds to the collision bit (43 R212). -/
theorem coll_plotRow (m : Bool) (cv : Canvas) (cx cy : Nat) (b : Byte) :
    (cv.plotRow m cx cy b).coll =
      (cv.coll || (List.range 8).any fun c => spriteBit m b c && Framebuffer.pixel cv.fb (cx + c) cy) :=
  (plotCols m cx cy b _ (columns_distinct cx) cv).2

/-- Screen pixel `(px, py)` lies under a 1 bit of the sprite `bs` drawn at `(cx, cy)`: the set `S` of 43 R214. -/
def SpriteHits (m : Bool) (cx cy : Nat) (bs : List Byte) (px py : Nat) : Prop :=
  ∃ r, ∃ h : r < bs.length, ∃ c, c < 8 ∧ spriteBit m bs[r] c = true ∧ px % 64 = (cx + c) % 64 ∧
    py % 32 = (cy + r) % 32

theorem spriteHits_cons {m : Bool} {cx cy px py : Nat} {b : Byte} {bs : List Byte} :
    SpriteHits m cx cy (b :: bs) px py ↔
      (py % 32 = cy % 32 ∧ colHit m cx b px (List.range 8) = true) ∨ SpriteHits m cx (cy + 1) bs px py := by
  rw [colHit_iff]
  constructor
  · rintro ⟨r, hr, c, hc, hb, hx, hy⟩
    cases r with
    | zero => exact .inl ⟨by simpa using hy, c, List.mem_range.mpr hc, by simpa using hb, hx⟩
    | succ r =>
      refine .inr ⟨r, by simpa using hr, c, hc, by simpa using hb, hx, ?_⟩
      rw [hy]; congr 1; omega
  · rintro (⟨hy, c, hc, hb, hx⟩ | ⟨r, hr, c, hc, hb, hx, hy⟩)
    · exact ⟨0, by simp, c, List.mem_range.mp hc, by simpa using hb, hx, by simpa using hy⟩
    · refine ⟨r + 1, by simpa using hr, c, hc, by simpa using hb, hx, ?_⟩
      rw [hy]; congr 1; omega

/-- A sprite of at most 32 rows toggles exactly the pixels under its 1 bits, each once: `FB <- FB XOR S`
(43 R214). -/
theorem pixel_plotRows (m : Bool) (bs : List Byte) (cv : Canvas) (cx cy : Nat) (h : bs.length ≤ 32) (px py : Nat) :
    (SpriteHits m cx cy bs px py →
      Framebuffer.pixel (cv.plotRows m cx cy bs).fb px py = !Framebuffer.pixel cv.fb px py) ∧
    (¬ SpriteHits m cx cy bs px py →
      Framebuffer.pixel (cv.plotRows m cx cy bs).fb px py = Framebuffer.pixel cv.fb px py) := by
  induction bs generalizing cv cy with
  | nil =>
    refine ⟨?_, fun _ => rfl⟩
    rintro ⟨r, hr, -⟩
    simp at hr
  | cons b bs ih =>
    simp only [List.length_cons] at h
    have ih := ih (cv.plotRow m cx cy b) (cy + 1) (by omega)
    rw [spriteHits_cons, Canvas.plotRows]
    by_cases hrow : py % 32 = cy % 32 ∧ colHit m cx b px (List.range 8) = true
    · have hrest : ¬ SpriteHits m cx (cy + 1) bs px py := by
        rintro ⟨r, hr, -, -, -, -, hy⟩
        have := hrow.1
        omega
      refine ⟨fun _ => ?_, fun hn => absurd (.inl hrow) hn⟩
      rw [ih.2 hrest, pixel_plotRow]
      simp [hrow.1, hrow.2]
    · have hsame : Framebuffer.pixel (cv.plotRow m cx cy b).fb px py = Framebuffer.pixel cv.fb px py := by
        rw [pixel_plotRow]
        have : (py % 32 == cy % 32 && colHit m cx b px (List.range 8)) = false := by
          rw [← Bool.not_eq_true]; simpa using hrow
        simp [this]
      rw [hsame] at ih
      exact ⟨fun hh => ih.1 (hh.resolve_left hrow), fun hn => ih.2 fun hh => hn (.inr hh)⟩

/-- The collision bit after a sprite of at most 32 rows: it was set, or some pixel under a 1 bit was on
(43 R212, R214). -/
theorem coll_plotRows (m : Bool) (bs : List Byte) (cv : Canvas) (cx cy : Nat) (h : bs.length ≤ 32) :
    (cv.plotRows m cx cy bs).coll = true ↔
      cv.coll = true ∨ ∃ px py, SpriteHits m cx cy bs px py ∧ Framebuffer.pixel cv.fb px py = true := by
  have wrap : ∀ (fb : Framebuffer) {a a' b b' : Nat}, a % 64 = a' % 64 → b % 32 = b' % 32 →
      Framebuffer.pixel fb a b = Framebuffer.pixel fb a' b' := by
    intro fb a a' b b' h1 h2
    simp [Framebuffer.pixel, h1, h2]
  induction bs generalizing cv cy with
  | nil =>
    simp only [Canvas.plotRows]
    refine ⟨.inl, ?_⟩
    rintro (h | ⟨px, py, ⟨r, hr, -⟩, -⟩)
    · exact h
    · simp at hr
  | cons b bs ih =>
    simp only [List.length_cons] at h
    have ih := ih (cv.plotRow m cx cy b) (cy + 1) (by omega)
    refine Iff.trans ih ?_
    rw [coll_plotRow, Bool.or_eq_true, List.any_eq_true]
    have hother : ∀ {px py}, SpriteHits m cx (cy + 1) bs px py →
        Framebuffer.pixel (cv.plotRow m cx cy b).fb px py = Framebuffer.pixel cv.fb px py := by
      rintro px py ⟨r, hr, -, -, -, -, hy⟩
      rw [pixel_plotRow]
      have : (py % 32 == cy % 32) = false := by
        simp only [beq_eq_false_iff_ne, ne_eq]; omega
      simp [this]
    constructor
    · rintro ((hcv | ⟨c, hc, hbit⟩) | ⟨px, py, hh, hon⟩)
      · exact .inl hcv
      · simp only [Bool.and_eq_true] at hbit
        exact .inr ⟨cx + c, cy, spriteHits_cons.mpr (.inl ⟨rfl, colHit_iff.mpr ⟨c, hc, hbit.1, rfl⟩⟩), hbit.2⟩
      · exact .inr ⟨px, py, spriteHits_cons.mpr (.inr hh), hother hh ▸ hon⟩
    · rintro (hcv | ⟨px, py, hh, hon⟩)
      · exact .inl (.inl hcv)
      · rcases spriteHits_cons.mp hh with ⟨hy, hcol⟩ | hh
        · obtain ⟨c, hc, hbit, hx⟩ := colHit_iff.mp hcol
          exact .inl (.inr ⟨c, hc, by simp [hbit, ← wrap cv.fb hx hy, hon]⟩)
        · exact .inr ⟨px, py, hh, (hother hh).trans hon⟩

end Sys2Proof.Laws
end

