-- ==== Sys2Proof/Laws/Exec.lean ====
section
/-! SUPPORT. The next state of each instruction that has a condition, where the condition lets its own effect happen;
that every instruction answers a next state which either keeps the latch or is the old state with the latch written;
and that the machine with its parameters as arguments is `exec` at the spec's. -/

namespace Sys2Proof.Laws
open Sys2Proof Sys2Proof.Machine

/-- The codes of the latch (60 R251). -/
theorem code_le (f : Fault) : f.code.toNat ≤ 5 := by cases f <;> simp [Fault.code]

/-- At the spec's parameters and the free byte the meanings are those of `exec` (00 R7). -/
theorem execWith_spec (i : Instr) (s : State) : execWith Params.spec (Config.rnd s.draws) i s = exec i s := by
  cases i <;> rfl

theorem execCall_room {s : State} (nnn : Addr12) (h : s.sp.val < 16) :
    execCall nnn s = .next { s with
      pc := zext16 nnn, stk := s.stk.set s.sp.val (s.pc + 2#16), sp := ⟨s.sp.val + 1, Nat.succ_lt_succ h⟩ } := by
  simp only [execCall, execCallWith, push_room _ h]
  rfl

theorem execRet_nonempty {s : State} (h : s.sp.val ≠ 0) :
    execRet s = .next { s with
      pc := s.stk[s.sp.val - 1]'(by have := s.sp.isLt; omega),
      sp := ⟨s.sp.val - 1, by have := s.sp.isLt; omega⟩ } := by
  simp only [execRet, execRetWith, pop_nonempty h]
  rfl

theorem execLdBVx_inside {s : State} (x : Reg) (h : s.i.toNat + 2 ≤ 0xFFF) :
    execLdBVx x s = .next (s.advance.storeBytes s.dataAddr (bcdDigits (s.reg x))) := by
  have : spanExists s.dataAddr 3 = true := by
    rw [spanExists_iff]; simp only [State.dataAddr]; omega
  simp only [execLdBVx, execLdBVxWith, spec_memPolicy, spanAllowed_fault, this, if_true, storeBytesWith_direct]

theorem spanExists_block {s : State} {x : Reg} (h : s.i.toNat + x.toNat ≤ 0xFFF) :
    spanExists s.dataAddr (blockLen x) = true := by
  rw [spanExists_iff]; simp only [State.dataAddr, blockLen]; omega

theorem execLdMemVx_inside {s : State} {x : Reg} (h : s.i.toNat + x.toNat ≤ 0xFFF) :
    execLdMemVx x s = .next ((s.advance.storeBytes s.dataAddr (s.regBlock x)).setI (s.iPastBlock x)) := by
  simp only [execLdMemVx, execLdMemVxWith, spec_memPolicy, spanAllowed_fault, spanExists_block h, if_true,
    storeBytesWith_direct]

theorem execLdVxMem_inside {s : State} {x : Reg} (h : s.i.toNat + x.toNat ≤ 0xFFF) :
    execLdVxMem x s = .next ((s.advance.loadBlock .fault x s.dataAddr).setI (s.iPastBlock x)) := by
  simp only [execLdVxMem, execLdVxMemWith, spec_memPolicy, spanAllowed_fault, spanExists_block h, if_true]

/-- `I` past a block that lies inside memory does not wrap (42 R194, R195). -/
theorem iPastBlock_toNat {s : State} {x : Reg} (h : s.i.toNat + x.toNat ≤ 0xFFF) :
    (s.iPastBlock x).toNat = s.i.toNat + x.toNat + 1 := by
  have := x.isLt
  simp [State.iPastBlock, blockLen, BitVec.toNat_add]
  omega

theorem execSkpVx_key {s : State} {x : Reg} (h : (s.reg x).toNat < 16) :
    execSkpVx x s = .next (s.skipIf s.key[(s.reg x).toNat]) := by
  simp only [execSkpVx, execSkpVxWith, keyAt_of_lt h]

theorem execSknpVx_key {s : State} {x : Reg} (h : (s.reg x).toNat < 16) :
    execSknpVx x s = .next (s.skipIf !s.key[(s.reg x).toNat]) := by
  simp only [execSknpVx, execSknpVxWith, keyAt_of_lt h]

/-- What every instruction can do with the latch, at any parameters: answer a next state that keeps it, or raise a fault,
which changes it alone. -/
theorem execWith_latch (p : Params) (rnd : Byte) (i : Instr) (s : State) :
    ∃ t, execWith p rnd i s = .next t ∧ (t.fault = s.fault ∨ ∃ f : Fault, t = { s with fault := f.code }) := by
  have conditional : ∀ (c : Bool) (t : State) (f : Fault), t.fault = s.fault →
      ∃ u, (if c = true then Host.Outcome.next t else raise f s : Result) = .next u ∧
        (u.fault = s.fault ∨ ∃ f : Fault, u = { s with fault := f.code }) := by
    intro c t f h
    cases c
    · exact ⟨_, rfl, .inr ⟨f, rfl⟩⟩
    · exact ⟨_, rfl, .inl h⟩
  cases i <;> simp only [execWith]
  case ret =>
    cases h : s.pop p with
    | none => exact ⟨_, by simp only [execRetWith, h]; exact raise_eq _ _, .inr ⟨_, rfl⟩⟩
    | some wt =>
      obtain ⟨k, -, -, ht⟩ := pop_eq_some (w := wt.1) (t := wt.2) h
      exact ⟨wt.2.jump wt.1, by simp only [execRetWith, h], .inl (by rw [ht]; rfl)⟩
  case call nnn =>
    cases h : s.push p s.npc with
    | none => exact ⟨_, by simp only [execCallWith, h]; exact raise_eq _ _, .inr ⟨_, rfl⟩⟩
    | some t =>
      obtain ⟨k, -, ht⟩ := push_eq_some h
      exact ⟨t.jump (zext16 nnn), by simp only [execCallWith, h], .inl (by rw [ht]; rfl)⟩
  case drw => exact conditional _ _ _ rfl
  case ldBVx => exact conditional _ _ _ rfl
  case ldMemVx => exact conditional _ _ _ rfl
  case ldVxMem => exact conditional _ _ _ rfl
  case skpVx x =>
    cases h : s.keyAt p.keyPolicy (s.reg x) with
    | none => exact ⟨_, by simp only [execSkpVxWith, h]; exact raise_eq _ _, .inr ⟨_, rfl⟩⟩
    | some b => exact ⟨s.skipIf b, by simp only [execSkpVxWith, h], .inl (by simp)⟩
  case sknpVx x =>
    cases h : s.keyAt p.keyPolicy (s.reg x) with
    | none => exact ⟨_, by simp only [execSknpVxWith, h]; exact raise_eq _ _, .inr ⟨_, rfl⟩⟩
    | some b => exact ⟨s.skipIf !b, by simp only [execSknpVxWith, h], .inl (by simp)⟩
  case ldVxK x =>
    cases h : s.keyHit p.keyWaitPick with
    | none => exact ⟨s, by simp only [execLdVxKWith, h], .inl rfl⟩
    | some k => exact ⟨s.advance.setReg x (BitVec.ofNat 8 k.val), by simp only [execLdVxKWith, h], .inl rfl⟩
  all_goals exact ⟨_, rfl, .inl (by simp)⟩

/-- What every instruction can do with the latch: answer a next state that keeps it, or raise a fault, which changes
it alone. -/
theorem exec_latch (i : Instr) (s : State) :
    ∃ t, exec i s = .next t ∧ (t.fault = s.fault ∨ ∃ f : Fault, t = { s with fault := f.code }) :=
  execWith_spec i s ▸ execWith_latch Params.spec (Config.rnd s.draws) i s

end Sys2Proof.Laws
end

