-- ==== Sys2Proof/Laws/Parametric.lean ====
section
/-! SUPPORT. What the open parameters of 00_scope.md rule R7 leave alone: an access that exists is the same access under
every `MEM_OOR_POLICY`, and a result and a flag in different registers land in either order. -/

namespace Sys2Proof.Laws
open Sys2Proof Sys2Proof.Machine

/-- The font of the spec's parameters is the font of the unlisted memory (10 R43). -/
theorem spec_font : Params.spec.font = font := by decide

@[simp] theorem length_font (p : Params) : p.font.length = 80 := by simp [Params.font, fontGlyph0]

/-- Below 0x1000 an address names its own cell (20 R78). -/
theorem cellAt_of_lt {a : Nat} (pol : MemPolicy) (h : a < Config.memSize) : cellAt pol a = a := by
  cases pol
  · rfl
  · exact Nat.mod_eq_of_lt h

/-- An access that exists goes on under every policy (20 R75). -/
theorem spanAllowed_of_exists {a n : Nat} (pol : MemPolicy) (h : spanExists a n = true) : spanAllowed pol a n = true := by
  cases pol
  · exact h
  · rfl

/-- The addresses of an access that exists name their own cells (20 R75). -/
theorem cellAt_of_exists {a n k : Nat} (pol : MemPolicy) (h : spanExists a n = true) (hk : k < n) :
    cellAt pol (a + k) = a + k :=
  cellAt_of_lt pol (by have := spanExists_iff.mp h; simp only [Config.memSize]; omega)

/-- Bytes that exist read the same under every policy (20 R73). -/
theorem bytesAtWith_of_exists {s : State} {a n : Nat} (pol : MemPolicy) (h : spanExists a n = true) :
    s.bytesAtWith pol a n = s.bytesAt a n := by
  refine List.map_congr_left fun k hk => ?_
  rw [cellAt_of_exists pol h (List.mem_range.mp hk), cellAt_fault]

/-- Bytes stored where they exist are stored the same under every policy (20 R73). -/
theorem memSetBytesWith_of_inside {a : Nat} {bs : List Byte} (pol : MemPolicy) (m : Memory)
    (h : a + bs.length ≤ Config.memSize) : memSetBytesWith pol m a bs = memSetBytes m a bs := by
  induction bs generalizing m a with
  | nil => rfl
  | cons b bs ih =>
    simp only [List.length_cons] at h
    rw [memSetBytesWith, cellAt_of_lt pol (by omega), memSetBytes_cons]
    exact ih _ (by omega)

/-- A result and a flag in different registers: `VF_PRIORITY` does not matter (93 U4). -/
theorem setResultAndFlag_of_ne {x : Reg} (pr pr' : VfPriority) (s : State) (r : Byte) (c : Bool) (h : x ≠ VF) :
    s.setResultAndFlag pr x r c = s.setResultAndFlag pr' x r c := by
  have swap : (s.setReg x r).setFlag c = (s.setFlag c).setReg x r := by
    have hv : ((s.setReg x r).setFlag c).v = ((s.setFlag c).setReg x r).v := v_ext fun q => by
      rw [reg_setFlag, reg_setReg, reg_setReg, reg_setFlag]
      by_cases hq : q = x <;> simp [hq, h]
    simp only [State.setFlag, State.setReg] at hv ⊢
    rw [hv]
  cases pr <;> cases pr' <;> simp [State.setResultAndFlag, swap]

end Sys2Proof.Laws
end

