-- ==== Sys2Proof/Laws/PerInstr.lean ====
section
/-! SUPPORT. For every instruction, the word the encoder writes lies in that instruction's row of the opcode map
(30_encoding.md rules R105, R106). -/

namespace Sys2Proof.Laws.EncodesInRow
open Sys2Proof

/-- The encoded word has the row's constant bits. -/
def Statement (i : Instr) : Prop := encode i &&& i.mask = i.matchBits

/-- Format NNN leaves the family. -/
theorem nnn_row (f : Nibble) (a : Addr12) : encNnn f a &&& 0xF000#16 = f.setWidth 16 <<< 12 := by
  apply BitVec.eq_of_getLsbD_eq
  intro i hi
  simp only [encNnn, BitVec.getLsbD_and, BitVec.getLsbD_append, BitVec.getLsbD_shiftLeft, BitVec.getLsbD_setWidth]
  by_cases h : i < 12
  · have : (0xF000#16).getLsbD i = false := by
      revert h; revert i; decide
    simp [h, this]
  · have : (0xF000#16).getLsbD i = true := by
      have : i = 12 ∨ i = 13 ∨ i = 14 ∨ i = 15 := by omega
      rcases this with rfl | rfl | rfl | rfl <;> rfl
    simp [h, this, hi, show i - 12 < 16 by omega]

/-- Format XKK leaves the family, for a row with no selector. -/
theorem xkk_row (f : Nibble) (x : Reg) (kk : Byte) : encXkk f x kk &&& 0xF000#16 = f.setWidth 16 <<< 12 := by
  have h := nnn_row f (x ++ kk)
  have e : encXkk f x kk = encNnn f (x ++ kk) := by
    rw [← encNnn_fields (encXkk f x kk), opFam_encXkk]
    congr 1
    apply BitVec.eq_of_getLsbD_eq
    intro i hi
    simp only [opNnn, encXkk, BitVec.getLsbD_extractLsb', BitVec.getLsbD_append]
    by_cases h1 : i < 8
    · simp [h1, hi]
    · simp [h1, hi, show i - 8 < 4 by omega]
  rw [e]; exact h

/-- Format XYS leaves the family and the low nibble. -/
theorem xys_row (f : Nibble) (x y : Reg) (n : Nibble) : encXyn f x y n &&& 0xF00F#16 = encXyn f 0x0#4 0x0#4 n := by
  apply BitVec.eq_of_getLsbD_eq
  intro i hi
  have key : ∀ j : Fin 16, (0xF00F#16).getLsbD j.val = (decide (j.val < 4) || decide (12 ≤ j.val)) := by decide
  have := key ⟨i, hi⟩
  simp only [encXyn, BitVec.getLsbD_and, BitVec.getLsbD_append, this]
  by_cases h1 : i < 8
  · by_cases h2 : i < 4
    · simp [h1, h2]
    · simp [h1, h2]; omega
  · by_cases h2 : i - 8 < 4
    · simp [h1, h2, show ¬ i < 4 by omega]; omega
    · simp [h1, h2, show ¬ i < 4 by omega, show 12 ≤ i by omega]

/-- Format XSS leaves the family and the low byte. -/
theorem xss_row (f : Nibble) (x : Reg) (kk : Byte) : encXkk f x kk &&& 0xF0FF#16 = encXkk f 0x0#4 kk := by
  apply BitVec.eq_of_getLsbD_eq
  intro i hi
  have key : ∀ j : Fin 16, (0xF0FF#16).getLsbD j.val = (decide (j.val < 8) || decide (12 ≤ j.val)) := by decide
  have := key ⟨i, hi⟩
  simp only [encXkk, BitVec.getLsbD_and, BitVec.getLsbD_append, this]
  by_cases h1 : i < 8
  · simp [h1]
  · by_cases h2 : i - 8 < 4
    · simp [h1, h2]; omega
    · simp [h1, h2, show 12 ≤ i by omega]

theorem cls : Statement .cls := rfl
theorem ret : Statement .ret := rfl
theorem jp (nnn : Addr12) : Statement (.jp nnn) := nnn_row _ _
theorem call (nnn : Addr12) : Statement (.call nnn) := nnn_row _ _
theorem seVxKk (x : Reg) (kk : Byte) : Statement (.seVxKk x kk) := xkk_row _ _ _
theorem sneVxKk (x : Reg) (kk : Byte) : Statement (.sneVxKk x kk) := xkk_row _ _ _
theorem seVxVy (x y : Reg) : Statement (.seVxVy x y) := xys_row _ _ _ _
theorem ldVxKk (x : Reg) (kk : Byte) : Statement (.ldVxKk x kk) := xkk_row _ _ _
theorem addVxKk (x : Reg) (kk : Byte) : Statement (.addVxKk x kk) := xkk_row _ _ _
theorem ldVxVy (x y : Reg) : Statement (.ldVxVy x y) := xys_row _ _ _ _
theorem orVxVy (x y : Reg) : Statement (.orVxVy x y) := xys_row _ _ _ _
theorem andVxVy (x y : Reg) : Statement (.andVxVy x y) := xys_row _ _ _ _
theorem xorVxVy (x y : Reg) : Statement (.xorVxVy x y) := xys_row _ _ _ _
theorem addVxVy (x y : Reg) : Statement (.addVxVy x y) := xys_row _ _ _ _
theorem subVxVy (x y : Reg) : Statement (.subVxVy x y) := xys_row _ _ _ _
theorem shrVx (x y : Reg) : Statement (.shrVx x y) := xys_row _ _ _ _
theorem subnVxVy (x y : Reg) : Statement (.subnVxVy x y) := xys_row _ _ _ _
theorem shlVx (x y : Reg) : Statement (.shlVx x y) := xys_row _ _ _ _
theorem sneVxVy (x y : Reg) : Statement (.sneVxVy x y) := xys_row _ _ _ _
theorem ldI (nnn : Addr12) : Statement (.ldI nnn) := nnn_row _ _
theorem jpV0 (nnn : Addr12) : Statement (.jpV0 nnn) := nnn_row _ _
theorem rndVxKk (x : Reg) (kk : Byte) : Statement (.rndVxKk x kk) := xkk_row _ _ _
theorem drw (x y : Reg) (n : Nibble) : Statement (.drw x y n) := xkk_row _ _ (y ++ n)
theorem skpVx (x : Reg) : Statement (.skpVx x) := xss_row _ _ _
theorem sknpVx (x : Reg) : Statement (.sknpVx x) := xss_row _ _ _
theorem ldVxDt (x : Reg) : Statement (.ldVxDt x) := xss_row _ _ _
theorem ldVxK (x : Reg) : Statement (.ldVxK x) := xss_row _ _ _
theorem ldDtVx (x : Reg) : Statement (.ldDtVx x) := xss_row _ _ _
theorem ldStVx (x : Reg) : Statement (.ldStVx x) := xss_row _ _ _
theorem addIVx (x : Reg) : Statement (.addIVx x) := xss_row _ _ _
theorem ldFVx (x : Reg) : Statement (.ldFVx x) := xss_row _ _ _
theorem ldBVx (x : Reg) : Statement (.ldBVx x) := xss_row _ _ _
theorem ldMemVx (x : Reg) : Statement (.ldMemVx x) := xss_row _ _ _
theorem ldVxMem (x : Reg) : Statement (.ldVxMem x) := xss_row _ _ _

end Sys2Proof.Laws.EncodesInRow
end

