-- ==== Sys2Proof/Tests/Slice0.lean ====
section
/-! SUPPORT. Tests. Expected results are the vectors of 95_test_vectors.md, named in each comment (TC, TA, TM, TD, TK,
TH; `decode` for its decode table; U for 93_implementation_defined.md). Every run is one step. The last section gives,
for every statement with hypotheses, states and operands that meet them, at the edges of their ranges. -/

namespace Sys2Proof.Tests
open Sys2Proof Sys2Proof.Machine

/-- The reset state changed by `pre`, with the opcode placed at its pc. -/
def start (op : Opcode) (pre : State → State) : State := (pre State.reset).placeOpcode op

/-- One cycle from `start`, and a check of the next state. -/
def ran (op : Opcode) (pre : State → State) (check : State → Bool) : Bool :=
  match step (start op pre) with
  | .next t => check t
  | .fault _ => false
  | .refused _ => false

/-- Registers 0 and 1 given. -/
def v01 (a b : Byte) (s : State) : State := (s.setReg 0#4 a).setReg 1#4 b

/-- Registers 0, 1 and VF given. -/
def v01f (a b f : Byte) (s : State) : State := (v01 a b s).setReg VF f

/-- A check of `V[0]`, VF and pc. -/
def is0f (a f : Byte) (s : State) : Bool := s.reg 0#4 == a && s.reg VF == f && s.pc == 0x202#16

/-! ### Decode: words of the spec's decode table and encodings written out from 30 R106 -/

theorem test_decode_fam0 : decode 0x00E0#16 = .instr .cls ∧ decode 0x00EE#16 = .instr .ret ∧
    decode 0x0000#16 = .unrecognised 0x0000#16 ∧ decode 0x00E1#16 = .unrecognised 0x00E1#16 ∧
    decode 0x01E0#16 = .unrecognised 0x01E0#16 := by decide
theorem test_decode_jumps : decode 0x1ABC#16 = .instr (.jp 0xABC#12) ∧ decode 0x2ABC#16 = .instr (.call 0xABC#12) ∧
    decode 0xBABC#16 = .instr (.jpV0 0xABC#12) ∧ decode 0xA050#16 = .instr (.ldI 0x050#12) := by decide
theorem test_decode_bytes : decode 0x3A7F#16 = .instr (.seVxKk 0xA#4 0x7F#8) ∧
    decode 0x4310#16 = .instr (.sneVxKk 3#4 0x10#8) ∧ decode 0x600A#16 = .instr (.ldVxKk 0#4 0x0A#8) ∧
    decode 0x70FF#16 = .instr (.addVxKk 0#4 0xFF#8) ∧ decode 0xC10F#16 = .instr (.rndVxKk 1#4 0x0F#8) := by decide
theorem test_decode_fam5_fam9 : decode 0x5AB0#16 = .instr (.seVxVy 0xA#4 0xB#4) ∧
    decode 0x5AB1#16 = .unrecognised 0x5AB1#16 ∧ decode 0x9AB0#16 = .instr (.sneVxVy 0xA#4 0xB#4) ∧
    decode 0x9121#16 = .unrecognised 0x9121#16 := by decide
theorem test_decode_fam8 : decode 0x8AB0#16 = .instr (.ldVxVy 0xA#4 0xB#4) ∧
    decode 0x8AB1#16 = .instr (.orVxVy 0xA#4 0xB#4) ∧ decode 0x8AB2#16 = .instr (.andVxVy 0xA#4 0xB#4) ∧
    decode 0x8AB3#16 = .instr (.xorVxVy 0xA#4 0xB#4) ∧ decode 0x8AB4#16 = .instr (.addVxVy 0xA#4 0xB#4) ∧
    decode 0x8AB5#16 = .instr (.subVxVy 0xA#4 0xB#4) ∧ decode 0x8AB6#16 = .instr (.shrVx 0xA#4 0xB#4) ∧
    decode 0x8AB7#16 = .instr (.subnVxVy 0xA#4 0xB#4) ∧ decode 0x8ABE#16 = .instr (.shlVx 0xA#4 0xB#4) ∧
    decode 0x8AB8#16 = .unrecognised 0x8AB8#16 ∧ decode 0x8ABF#16 = .unrecognised 0x8ABF#16 := by decide
theorem test_decode_famD_famE : decode 0xD123#16 = .instr (.drw 1#4 2#4 3#4) ∧
    decode 0xE29E#16 = .instr (.skpVx 2#4) ∧ decode 0xE2A1#16 = .instr (.sknpVx 2#4) ∧
    decode 0xE29F#16 = .unrecognised 0xE29F#16 := by decide
theorem test_decode_famF : decode 0xF207#16 = .instr (.ldVxDt 2#4) ∧ decode 0xF30A#16 = .instr (.ldVxK 3#4) ∧
    decode 0xF115#16 = .instr (.ldDtVx 1#4) ∧ decode 0xF118#16 = .instr (.ldStVx 1#4) ∧
    decode 0xF31E#16 = .instr (.addIVx 3#4) ∧ decode 0xF029#16 = .instr (.ldFVx 0#4) ∧
    decode 0xF333#16 = .instr (.ldBVx 3#4) ∧ decode 0xF255#16 = .instr (.ldMemVx 2#4) ∧
    decode 0xFF65#16 = .instr (.ldVxMem 0xF#4) ∧ decode 0xF375#16 = .unrecognised 0xF375#16 := by decide
/-- The source's program bytes `60 0A 61 05` (95 X9): big-endian, the rest left over; one byte is no instruction. -/
theorem test_decode_stream : decodeBytes [0x60#8, 0x0A#8, 0x61#8, 0x05#8] =
    .word (.instr (.ldVxKk 0#4 0x0A#8)) [0x61#8, 0x05#8] ∧ decodeBytes [0x60#8] = .truncated := by decide
theorem test_encode : encode (.drw 1#4 2#4 3#4) = 0xD123#16 ∧ encode (.ldVxMem 0xF#4) = 0xFF65#16 ∧
    encodeBytes (.call 0xABC#12) = [0x2A#8, 0xBC#8] := by decide
theorem test_decodeTableWord : decodeTableWord 16 0x8AB6 = some (.shrVx 0xA#4 0xB#4) ∧
    decodeTableWord 16 0x5AB1 = none := by decide

/-! ### The well-formedness checks refuse what U4 and U5 name -/

theorem test_portable_refuses_flag_destination : (Instr.addVxVy VF 1#4).portable = false ∧
    (Instr.subVxVy VF 1#4).portable = false ∧ (Instr.shrVx VF 0#4).portable = false ∧
    (Instr.subnVxVy VF 1#4).portable = false ∧ (Instr.shlVx VF 0xF#4).portable = false := by decide
theorem test_portable_refuses_flag_source : (Instr.addVxVy 0#4 VF).portable = false ∧
    (Instr.subVxVy 0#4 VF).portable = false ∧ (Instr.subnVxVy 0#4 VF).portable = false ∧
    (Instr.addIVx VF).portable = false ∧ (Instr.drw VF 0#4 1#4).portable = false ∧
    (Instr.drw 0#4 VF 1#4).portable = false := by decide
/-- Shifts ignore `y`, and plain writes of VF are fine (U5). -/
theorem test_portable_accepts : (Instr.shrVx 0#4 VF).portable = true ∧ (Instr.ldVxKk VF 1#8).portable = true ∧
    (Instr.addVxVy 0#4 1#4).portable = true := by decide

/-! ### Control transfer (TC) -/

/-- TC1. -/
theorem test_jp : ran 0x1204#16 (·.jump 0x20A#16) (·.pc == 0x204#16) = true := by decide
/-- TC5. -/
theorem test_call : ran 0x2210#16 (·.jump 0x204#16)
    (fun t => t.stk[0] == 0x206#16 && t.sp == 1 && t.pc == 0x210#16) = true := by decide
/-- TC7. -/
theorem test_call_overflow : ran 0x2300#16 (fun s => { s with pc := 0x250#16, sp := 16 })
    (fun t => t.fault == 2#3 && t.pc == 0x250#16 && t.sp == 16) = true := by decide
/-- TC11. -/
theorem test_ret : ran 0x00EE#16 (fun s => { s with pc := 0x212#16, sp := 16, stk := s.stk.set 15 0x345#16 })
    (fun t => t.sp == 15 && t.pc == 0x345#16 && t.stk[15] == 0x345#16) = true := by decide
/-- TC10. -/
theorem test_ret_underflow : ran 0x00EE#16 (fun s => { s with pc := 0x212#16, stk := s.stk.set 0 0x206#16 })
    (fun t => t.fault == 3#3 && t.pc == 0x212#16 && t.sp == 0) = true := by decide
/-- TC12, TC13. -/
theorem test_se_byte : ran 0x3000#16 (·.jump 0x208#16) (·.pc == 0x20C#16) = true ∧
    ran 0x3000#16 (fun s => (s.jump 0x208#16).setReg 0#4 1#8) (·.pc == 0x20A#16) = true := by decide
/-- TC14, TC15. -/
theorem test_sne_byte : ran 0x4311#16 (fun s => (s.jump 0x300#16).setReg 3#4 0x10#8) (·.pc == 0x304#16) = true ∧
    ran 0x4310#16 (fun s => (s.jump 0x300#16).setReg 3#4 0x10#8) (·.pc == 0x302#16) = true := by decide
/-- TC16, TC17. -/
theorem test_se_reg : ran 0x5120#16 (fun s => (s.setReg 1#4 7#8).setReg 2#4 7#8) (·.pc == 0x204#16) = true ∧
    ran 0x5120#16 (fun s => (s.setReg 1#4 7#8).setReg 2#4 8#8) (·.pc == 0x202#16) = true := by decide
/-- TC19, TC20. -/
theorem test_sne_reg : ran 0x9120#16 (fun s => (s.setReg 1#4 7#8).setReg 2#4 8#8) (·.pc == 0x204#16) = true ∧
    ran 0x9120#16 (fun s => (s.setReg 1#4 7#8).setReg 2#4 7#8) (·.pc == 0x202#16) = true := by decide
/-- TC22, TC23. -/
theorem test_jpV0 : ran 0xB300#16 (·.setReg 0#4 4#8) (·.pc == 0x304#16) = true ∧
    ran 0xBFFF#16 (·.setReg 0#4 0xFF#8) (·.pc == 0x10FE#16) = true := by decide
/-- TC24, TC26, TC27. -/
theorem test_fetch_edge : ran 0x0000#16 (·.jump 0xFFF#16) (fun t => t.fault == 1#3 && t.pc == 0xFFF#16) = true ∧
    ran 0x0000#16 (·.jump 0xFFE#16) (fun t => t.fault == 0#3 && t.pc == 0x1000#16) = true ∧
    ran 0x3000#16 (·.jump 0xFFC#16) (fun t => t.fault == 0#3 && t.pc == 0x1000#16) = true := by decide
/-- TC29, TC30, TC31. -/
theorem test_unrecognised : ran 0x8018#16 (v01 1#8 2#8) (is0f 1#8 0#8) = true ∧
    ran 0xE19F#16 (v01 0#8 0xFF#8) (fun t => t.fault == 0#3 && t.pc == 0x202#16) = true ∧
    ran 0xF1FF#16 (v01 0#8 0xFF#8) (fun t => t.i == 0#16 && t.pc == 0x202#16) = true := by decide
/-- TC32. -/
theorem test_stuck : ran 0x6001#16 (fun s => { s with pc := 0x250#16, fault := 2#3 })
    (fun t => t.fault == 2#3 && t.pc == 0x250#16 && t.reg 0#4 == 0#8) = true := by decide

/-! ### Load and ALU (TA) -/

/-- TA1. -/
theorem test_ldVxKk : ran 0x600A#16 id (is0f 0x0A#8 0#8) = true := by decide
/-- TA3, TA4. -/
theorem test_addVxKk : ran 0x7001#16 (v01 0xFF#8 0#8) (is0f 0#8 0#8) = true ∧
    ran 0x7F02#16 (v01f 0#8 0#8 0xFF#8) (is0f 0#8 1#8) = true := by decide
/-- TA5. -/
theorem test_ldVxVy : ran 0x8010#16 (v01 0#8 0x33#8) (is0f 0x33#8 0#8) = true := by decide
/-- TA6. -/
theorem test_or : ran 0x8011#16 (v01f 0xF0#8 0x0F#8 1#8) (is0f 0xFF#8 1#8) = true := by decide
/-- TA7. -/
theorem test_and : ran 0x8012#16 (v01 0xF0#8 0x3C#8) (is0f 0x30#8 0#8) = true := by decide
/-- TA8, TA9. -/
theorem test_xor : ran 0x8013#16 (v01 0xF0#8 0x3C#8) (is0f 0xCC#8 0#8) = true ∧
    ran 0x8003#16 (v01 0xAB#8 0#8) (is0f 0#8 0#8) = true := by decide
/-- TA10 to TA13. -/
theorem test_add : ran 0x8014#16 (v01 0xFF#8 1#8) (is0f 0#8 1#8) = true ∧
    ran 0x8014#16 (v01 0x80#8 0x7F#8) (is0f 0xFF#8 0#8) = true ∧
    ran 0x8004#16 (v01 0x90#8 0#8) (is0f 0x20#8 1#8) = true ∧
    ran 0x80F4#16 (v01f 0x10#8 0#8 0x20#8) (is0f 0x30#8 0#8) = true := by decide
/-- TA14, TA15. -/
theorem test_add_to_flag : ran 0x8F14#16 (v01f 0#8 1#8 0xFF#8) (fun t => t.reg VF == 1#8 && t.reg 1#4 == 1#8) = true ∧
    ran 0x8F14#16 (v01f 0#8 3#8 2#8) (·.reg VF == 0#8) = true := by decide
/-- TA16 to TA19. -/
theorem test_sub : ran 0x8015#16 (v01 5#8 3#8) (is0f 2#8 1#8) = true ∧
    ran 0x8015#16 (v01 3#8 5#8) (is0f 0xFE#8 0#8) = true ∧
    ran 0x8015#16 (v01f 5#8 5#8 1#8) (is0f 0#8 0#8) = true ∧
    ran 0x8005#16 (v01f 9#8 0#8 1#8) (is0f 0#8 0#8) = true := by decide
/-- TA20 to TA22. -/
theorem test_subn : ran 0x8017#16 (v01 3#8 5#8) (is0f 2#8 1#8) = true ∧
    ran 0x8017#16 (v01 5#8 3#8) (is0f 0xFE#8 0#8) = true ∧
    ran 0x8017#16 (v01f 5#8 5#8 1#8) (is0f 0#8 0#8) = true := by decide
/-- TA23 to TA25. -/
theorem test_shr : ran 0x8206#16 (·.setReg 2#4 0xFF#8) (fun t => t.reg 2#4 == 0x7F#8 && t.reg VF == 1#8) = true ∧
    ran 0x8216#16 (fun s => (v01f 0#8 0xFF#8 1#8 s).setReg 2#4 4#8)
      (fun t => t.reg 2#4 == 2#8 && t.reg VF == 0#8 && t.reg 1#4 == 0xFF#8) = true ∧
    ran 0x8F06#16 (·.setReg VF 3#8) (·.reg VF == 1#8) = true := by decide
/-- TA26 to TA28. -/
theorem test_shl : ran 0x820E#16 (·.setReg 2#4 0x81#8) (fun t => t.reg 2#4 == 2#8 && t.reg VF == 1#8) = true ∧
    ran 0x820E#16 (fun s => (s.setReg 2#4 0x40#8).setReg VF 1#8)
      (fun t => t.reg 2#4 == 0x80#8 && t.reg VF == 0#8) = true ∧
    ran 0x8FFE#16 (·.setReg VF 0x80#8) (·.reg VF == 1#8) = true := by decide
/-- TA29 to TA31: the cycle's random byte is 0xA7. -/
theorem test_rnd : ([(0x0F#8, 0x07#8), (0xFF#8, 0xA7#8), (0x00#8, 0x00#8)].all fun p =>
    match rndWith 0xA7#8 1#4 p.1 (State.reset.setReg 1#4 0x55#8) with
    | .next t => t.reg 1#4 == p.2 && t.pc == 0x202#16
    | .fault _ => false
    | .refused _ => false) = true := by decide

/-! ### Index and memory (TM) -/

/-- TM2. -/
theorem test_ldI : ran 0xAFFF#16 id (fun t => t.i == 0xFFF#16 && t.pc == 0x202#16) = true := by decide
/-- TM3a, TM3b, TM3c, TM3d. -/
theorem test_addI : ran 0xF21E#16 (fun s => ((s.setI 0xFFE#16).setReg 2#4 1#8).setReg VF 1#8)
      (fun t => t.i == 0xFFF#16 && t.reg VF == 0#8) = true ∧
    ran 0xF21E#16 (fun s => (s.setI 0xFFF#16).setReg 2#4 1#8) (fun t => t.i == 0x1000#16 && t.reg VF == 1#8) = true ∧
    ran 0xF21E#16 (fun s => (s.setI 0xFFFF#16).setReg 2#4 2#8) (fun t => t.i == 1#16 && t.reg VF == 1#8) = true ∧
    ran 0xFF1E#16 (fun s => (s.setI 0xFFD#16).setReg VF 3#8) (fun t => t.i == 0x1000#16 && t.reg VF == 1#8) = true := by
  decide
/-- TM4, TM4a, TM4b. -/
theorem test_ldF : ran 0xF029#16 (·.setReg 0#4 0x0F#8) (·.i == 0x09B#16) = true ∧
    ran 0xF029#16 (·.setReg 0#4 0x10#8) (·.i == 0x0A0#16) = true ∧
    ran 0xF029#16 (·.setReg 0#4 0xFF#8) (·.i == 0x54B#16) = true := by decide
/-- TM5, TM5f. -/
theorem test_ldB : ran 0xF333#16 (fun s => (s.setI 0x300#16).setReg 3#4 234#8)
      (fun t => t.bytesAt 0x300 3 == [2#8, 3#8, 4#8] && t.i == 0x300#16) = true ∧
    ran 0xF333#16 (fun s => (s.setI 0xFFD#16).setReg 3#4 9#8) (fun t => t.bytesAt 0xFFD 3 == [0#8, 0#8, 9#8]) = true := by
  decide
/-- TM5g. -/
theorem test_ldB_fault : ran 0xF333#16 (fun s => (s.setI 0xFFE#16).setReg 3#4 9#8)
    (fun t => t.fault == 4#3 && t.pc == 0x200#16 && t.bytesAt 0xFFE 2 == [0#8, 0#8]) = true := by decide
/-- TM6, TM6a. -/
theorem test_ldMem : ran 0xF255#16 (fun s => (((v01 1#8 2#8 s).setReg 2#4 3#8).setReg 3#4 9#8).setI 0x300#16)
      (fun t => t.bytesAt 0x300 4 == [1#8, 2#8, 3#8, 0#8] && t.i == 0x303#16) = true ∧
    ran 0xF055#16 (fun s => (s.setI 0xFFF#16).setReg 0#4 0xAA#8)
      (fun t => t.readByte 0xFFF == some 0xAA#8 && t.i == 0x1000#16 && t.fault == 0#3) = true := by decide
/-- TM6b. -/
theorem test_ldMem_fault : ran 0xF155#16 (fun s => (v01 0xAA#8 0xBB#8 s).setI 0xFFF#16)
    (fun t => t.fault == 4#3 && t.pc == 0x200#16 && t.readByte 0xFFF == some 0#8 && t.i == 0xFFF#16) = true := by decide
/-- TM7. -/
theorem test_ldVxMem : ran 0xF265#16 (fun s => (s.storeBytes 0x300 [2#8, 3#8, 4#8, 5#8]).setI 0x300#16)
    (fun t => t.reg 0#4 == 2#8 && t.reg 1#4 == 3#8 && t.reg 2#4 == 4#8 && t.reg 3#4 == 0#8 && t.i == 0x303#16) = true := by
  decide
/-- TM7a, TM7b. -/
theorem test_ldVxMem_fault : ran 0xF165#16 (fun s => (v01 7#8 8#8 s).setI 0xFFF#16)
      (fun t => t.fault == 4#3 && t.reg 0#4 == 7#8 && t.reg 1#4 == 8#8) = true ∧
    ran 0xF065#16 (fun s => (v01 7#8 8#8 s).setI 0x1000#16) (fun t => t.fault == 4#3 && t.reg 0#4 == 7#8) = true := by
  decide

/-! ### Display (TD) -/

/-- The pixels of `on` are on and those of `off` are off. -/
def shows (on off : List (Nat × Nat)) (t : State) : Bool :=
  (on.all fun p => t.fb.pixel p.1 p.2) && off.all fun p => !t.fb.pixel p.1 p.2

/-- Sprite bytes at 0x300 and `I` there. -/
def sprite (bs : List Byte) (s : State) : State := (s.storeBytes 0x300 bs).setI 0x300#16

/-- A pixel turned on. -/
def lit (p : Nat × Nat) (s : State) : State := { s with fb := s.fb.toggle p.1 p.2 }

/-- TD4, TD5. -/
theorem test_drw : ran 0xD011#16 (fun s => lit (7, 0) (sprite [0x81#8] s))
      (fun t => shows [(0, 0)] [(7, 0), (1, 0)] t && t.reg VF == 1#8 && t.rd) = true ∧
    ran 0xD011#16 (fun s => v01 60#8 31#8 (sprite [0xFF#8] s))
      (fun t => shows [(60, 31), (63, 31), (0, 31), (3, 31)] [(4, 31), (59, 31), (0, 0)] t && t.reg VF == 0#8) = true := by
  decide
/-- TD7, TD8, TD12. -/
theorem test_drw_edges : ran 0xD012#16 (fun s => v01 0#8 31#8 (sprite [0x80#8, 0x40#8] s))
      (shows [(0, 31), (1, 0)] [(0, 0), (1, 31)]) = true ∧
    ran 0xD010#16 (fun s => (s.setI 0x1234#16).setReg VF 1#8)
      (fun t => t.reg VF == 0#8 && t.rd && t.fault == 0#3) = true ∧
    ran 0xDF01#16 (fun s => v01f 0#8 0#8 5#8 (sprite [0x80#8] s))
      (fun t => shows [(5, 0)] [(0, 0)] t && t.reg VF == 0#8) = true := by decide
/-- TD9, TD10. -/
theorem test_drw_fault : ran 0xD011#16 (fun s => (s.setI 0x1000#16).setReg VF 1#8)
      (fun t => t.fault == 4#3 && t.pc == 0x200#16 && t.reg VF == 1#8 && !t.rd) = true ∧
    ran 0xD012#16 (·.setI 0xFFF#16) (fun t => t.fault == 4#3 && t.pc == 0x200#16) = true := by decide
/-- TD14. -/
theorem test_cls : ran 0x00E0#16 (fun s => lit (0, 0) (lit (63, 31) (s.setReg VF 1#8)))
    (fun t => shows [] [(0, 0), (63, 31)] t && t.reg VF == 1#8 && t.rd && t.pc == 0x202#16) = true := by decide
/-- TC28: 0x01E0 is unrecognised. -/
theorem test_not_cls : ran 0x01E0#16 (lit (1, 1)) (fun t => shows [(1, 1)] [] t && !t.rd && t.pc == 0x202#16) = true := by
  decide

/-! ### Keypad and timers (TK) -/

/-- TK1, TK2, TK6. -/
theorem test_skp : ran 0xE19E#16 (fun s => (s.setReg 1#4 5#8).setKey 5 true) (·.pc == 0x204#16) = true ∧
    ran 0xE19E#16 (·.setReg 1#4 5#8) (·.pc == 0x202#16) = true ∧
    ran 0xE19E#16 (·.setReg 1#4 0x10#8) (fun t => t.fault == 5#3 && t.pc == 0x200#16) = true := by decide
/-- TK3, TK4, TK7. -/
theorem test_sknp : ran 0xE1A1#16 (·.setReg 1#4 5#8) (·.pc == 0x204#16) = true ∧
    ran 0xE1A1#16 (fun s => (s.setReg 1#4 5#8).setKey 5 true) (·.pc == 0x202#16) = true ∧
    ran 0xE1A1#16 (·.setReg 1#4 0xFF#8) (fun t => t.fault == 5#3 && t.pc == 0x200#16) = true := by decide
/-- TK8. -/
theorem test_key_wait : ran 0xF10A#16 (·.setReg 1#4 0x33#8)
    (fun t => t.pc == 0x200#16 && t.reg 1#4 == 0x33#8) = true := by decide
/-- TK11, TK12. -/
theorem test_key_taken : ran 0xF10A#16 (fun s => ((s.setReg 1#4 0x33#8).setKey 9 true).setKey 3 true)
      (fun t => t.reg 1#4 == 3#8 && t.pc == 0x202#16) = true ∧
    ran 0xFF0A#16 (·.setKey 15 true) (fun t => t.reg VF == 0x0F#8 && t.pc == 0x202#16) = true := by decide
/-- TK13. -/
theorem test_ldVxDt : ran 0xF207#16 (fun s => { s with dt := 6#8 })
    (fun t => t.reg 2#4 == 6#8 && t.dt == 6#8 && t.pc == 0x202#16) = true := by decide
/-- TK14. -/
theorem test_ldDtVx : ran 0xF115#16 (·.setReg 1#4 7#8) (fun t => t.dt == 7#8 && t.st == 0#8 && t.pc == 0x202#16) = true := by
  decide
/-- TK15. -/
theorem test_ldStVx : ran 0xF118#16 (·.setReg 1#4 0x1E#8)
    (fun t => t.st == 0x1E#8 && t.dt == 0#8 && t.observe.sound) = true := by decide

/-! ### Host transactions (TH) and boot -/

/-- TH1 to TH4. -/
theorem test_tick : ([((2#8, 0#8), (1#8, 0#8)), ((1#8, 1#8), (0#8, 0#8)), ((0#8, 0#8), (0#8, 0#8)),
    ((0xFF#8, 0x10#8), (0xFE#8, 0x0F#8))].all fun p =>
      let t := { State.reset with dt := p.1.1, st := p.1.2 }.tick
      t.dt == p.2.1 && t.st == p.2.2) = true := by decide
/-- TH5. -/
theorem test_clear_redraw : { State.reset with rd := true }.clearRedraw.rd = false := by decide
/-- TH8 and the program of X9: the bytes stand at 0x200 upward. -/
theorem test_load : State.reset.load [] = some State.reset ∧
    (State.reset.load [0x60#8, 0x0A#8, 0x61#8]).map (·.bytesAt 0x1FF 5) = some [0#8, 0x60#8, 0x0A#8, 0x61#8, 0#8] := by
  decide
/-- TH7. -/
theorem test_load_too_large : State.reset.load (List.replicate 3585 0#8) = none :=
  if_pos (by rw [List.length_replicate]; decide)
/-- 70 R282: no second `load`, and none after a cycle. -/
theorem test_load_once : runTransactions [.load [0x60#8], .load [0x60#8]] System.reset = none ∧
    runTransactions [.cycle, .load [0x60#8]] System.reset = none := by decide
/-- TH9. -/
theorem test_reset_memory : State.reset.bytesAt 0x04F 6 = [0#8, 0xF0#8, 0x90#8, 0x90#8, 0x90#8, 0xF0#8] ∧
    State.reset.readByte 0x0A0 = some 0#8 ∧ State.reset.readByte 0x1000 = none := by decide
/-- Writing an address's reset contents back unlists it, font included. -/
theorem test_memory_canonical : (State.reset.storeBytes 0x050 [0xAA#8, 0x55#8]).mem = [(0x050, 0xAA#8), (0x051, 0x55#8)] ∧
    ((State.reset.storeBytes 0x050 [0xAA#8, 0x55#8]).storeBytes 0x050 [0xF0#8]).mem = [(0x051, 0x55#8)] := by decide

/-! ### The alternatives of the open parameters (00 R7) -/

/-- One cycle at the parameters `p` from `start`, with the random byte 0, and a check of the next state. -/
def ranWith (p : Params) (op : Opcode) (pre : State → State) (check : State → Bool) : Bool :=
  match stepWith p 0#8 (start op pre) with
  | .next t => check t
  | .fault _ => false
  | .refused _ => false

/-- A 4-bit pointer that wraps (D3): the 16th `CALL` leaves `SP` 0, and the 17th overwrites `STK[0]`. -/
def wrapping : Params := { Params.spec with spBits := 4, stackPolicy := .wrap }

theorem test_stack_wraps : ranWith wrapping 0x2300#16 (fun s => { s with sp := 15 })
      (fun t => t.sp == 0 && t.stk[15] == 0x202#16 && t.fault == 0#3) = true ∧
    ranWith wrapping 0x2300#16 (fun s => { s with stk := s.stk.set 0 0x345#16 })
      (fun t => t.sp == 1 && t.stk[0] == 0x202#16 && t.fault == 0#3) = true ∧
    ranWith wrapping 0x00EE#16 (fun s => { s with stk := s.stk.set 15 0x345#16 })
      (fun t => t.sp == 15 && t.pc == 0x345#16 && t.fault == 0#3) = true ∧
    ranWith { Params.spec with stackPolicy := .wrap } 0x2300#16 (fun s => { s with sp := 16 })
      (fun t => t.sp == 1 && t.stk[0] == 0x202#16 && t.fault == 0#3) = true := by decide
/-- U4: with the result landing last `8F14` leaves the sum in VF; U7 and 44 R232 (c): the highest key. -/
theorem test_result_and_highest :
    ranWith { Params.spec with vfPriority := .result } 0x8F14#16 (v01f 0#8 3#8 2#8) (·.reg VF == 5#8) = true ∧
    ranWith { Params.spec with keyWaitPick := .highest } 0xF10A#16 (fun s => (s.setKey 9 true).setKey 3 true)
      (·.reg 1#4 == 9#8) = true ∧
    ranWith { Params.spec with keyWaitPick := .nth 3 } 0xF10A#16 (fun s => (s.setKey 9 true).setKey 3 true)
      (·.reg 1#4 == 9#8) = true := by decide
/-- U6: 0x01E0 runs as CLS; U17: bit 0 of a sprite byte is column 0. -/
theorem test_loose_and_mirrored :
    ranWith { Params.spec with decodeStrict := false } 0x01E0#16 (lit (1, 1)) (fun t => shows [] [(1, 1)] t && t.rd) = true ∧
    ranWith { Params.spec with spriteMsbLeft := false } 0xD011#16 (sprite [0x01#8]) (shows [(0, 0)] [(7, 0)]) = true := by
  decide
/-- The alternatives U2 and D8 name: an address modulo 4096, a key index masked to 4 bits. -/
theorem test_memory_wraps_and_key_masked :
    ranWith { Params.spec with memPolicy := .wrap } 0xF155#16 (fun s => (v01 0xAA#8 0xBB#8 s).setI 0xFFF#16)
      (fun t => t.readByte 0xFFF == some 0xAA#8 && t.readByte 0 == some 0xBB#8 && t.fault == 0#3) = true ∧
    ranWith { Params.spec with memPolicy := .wrap } 0x0000#16 (·.jump 0xFFF#16)
      (fun t => t.pc == 0x1001#16 && t.fault == 0#3) = true ∧
    ranWith { Params.spec with keyPolicy := .mask } 0xE19E#16 (fun s => (s.setReg 1#4 0x15#8).setKey 5 true)
      (fun t => t.pc == 0x204#16 && t.fault == 0#3) = true := by decide
/-- D14: whatever the font, glyph 0 stays the source's. -/
theorem test_other_font : ({ Params.spec with fontTail := Vector.replicate 75 0x3C#8 } : Params).font.take 7 =
    [0xF0#8, 0x90#8, 0x90#8, 0x90#8, 0xF0#8, 0x3C#8, 0x3C#8] := by decide
/-- R44: the byte the cycle is given is the one `Cxkk` uses (TA29). -/
theorem test_rnd_given : (match stepWith Params.spec 0xA7#8 (start 0xC10F#16 id) with
    | .next t => t.reg 1#4 == 0x07#8
    | .fault _ => false
    | .refused _ => false) = true := by decide

/-! ### Witnesses: states and operands that meet the hypotheses of the statements -/

/-- A state at 0xFFF that faults at its fetch. -/
def pastEnd : State := State.reset.jump 0xFFF#16

theorem witness_EncodeOfDecodeGivesTheWord : decode 0x8AB6#16 = .instr (.shrVx 0xA#4 0xB#4) := by decide
theorem witness_StepRunsTheDecodedInstruction :
    let s := start 0x600A#16 id
    s.fault = 0#3 ∧ s.readByte s.pc.toNat = some 0x60#8 ∧ s.readByte (s.pc.toNat + 1) = some 0x0A#8 ∧
      decodeBytes [0x60#8, 0x0A#8] = .word (.instr (.ldVxKk 0#4 0x0A#8)) [] := by decide
/-- The last address a fetch can start at. -/
theorem witness_StepRuns_at_last_address :
    let s := start 0x600A#16 (·.jump 0xFFE#16)
    s.fault = 0#3 ∧ s.readByte s.pc.toNat = some 0x60#8 ∧ s.readByte (s.pc.toNat + 1) = some 0x0A#8 ∧
      decodeBytes [0x60#8, 0x0A#8] = .word (.instr (.ldVxKk 0#4 0x0A#8)) [] := by decide
theorem witness_UnrecognisedWordOnlyAdvancesThePc :
    State.reset.fault = 0#3 ∧ State.reset.readByte State.reset.pc.toNat = some 0#8 ∧
      State.reset.readByte (State.reset.pc.toNat + 1) = some 0#8 ∧
      decodeBytes [0#8, 0#8] = .word (.unrecognised 0#16) [] := by decide
theorem witness_FetchAboveMemoryFaults : pastEnd.fault = 0#3 ∧ pastEnd.pc.toNat > 0xFFE := by decide
theorem witness_FaultedCoreIsStuck : { State.reset with fault := 2#3 }.fault ≠ 0#3 := by decide
theorem witness_FaultChangesNothingElse :
    step pastEnd = .next { pastEnd with fault := 1#3 } ∧ { pastEnd with fault := 1#3 }.fault ≠ 0#3 :=
  ⟨rfl, by decide⟩
/-- Each code of the table is latched from some state that has not faulted. -/
theorem witness_FaultsExactlyAsListed :
    ran 0x0000#16 (·.jump 0xFFF#16) (·.fault == 1#3) = true ∧
    ran 0x2300#16 (fun s => { s with sp := 16 }) (·.fault == 2#3) = true ∧
    ran 0x00EE#16 id (·.fault == 3#3) = true ∧
    ran 0xD00F#16 (·.setI 0xFF2#16) (·.fault == 4#3) = true ∧
    ran 0xF033#16 (·.setI 0xFFE#16) (·.fault == 4#3) = true ∧
    ran 0xFF55#16 (·.setI 0xFF1#16) (·.fault == 4#3) = true ∧
    ran 0xFF65#16 (·.setI 0xFF1#16) (·.fault == 4#3) = true ∧
    ran 0xE09E#16 (·.setReg 0#4 16#8) (·.fault == 5#3) = true := by decide
theorem witness_PcChangesOnlyAsListed :
    State.reset.fault = 0#3 ∧ exec (.jp 0x200#12) State.reset = .next State.reset ∧
      exec .ret State.reset = .next { State.reset with fault := 3#3 } := ⟨rfl, rfl, rfl⟩
theorem witness_EveryStepKeepsTheInvariant :
    State.reset.Inv ∧ step State.reset = .next State.reset.advance := ⟨by decide, rfl⟩
theorem witness_EveryTransactionKeepsTheInvariant :
    System.reset.core.Inv ∧ transact .tick System.reset = some (System.reset, .done) := ⟨by decide, rfl⟩
theorem witness_OnlyTheNamedInstructionsWriteEachElement :
    exec (.ldDtVx 0#4) (State.reset.setReg 0#4 9#8) = .next { (State.reset.setReg 0#4 9#8).advance with dt := 9#8 } :=
  rfl
/-- Its clauses on a register, VF, pc and the latch. -/
theorem witness_OnlyTheNamed_registers_pc_and_latch :
    ran 0xFF65#16 (fun s => (s.storeBytes 0xFFF [7#8]).setI 0xFF0#16) (fun t => t.reg VF == 7#8) = true ∧
    ran 0x8014#16 (v01 0xFF#8 1#8) (fun t => t.reg VF == 1#8) = true ∧
    ran 0x3000#16 id (fun t => t.pc == 0x204#16) = true ∧ ran 0xF10A#16 id (fun t => t.pc == 0x200#16) = true ∧
    ran 0x00EE#16 id (fun t => t.fault == 3#3 && t.pc == 0x200#16) = true := by decide
theorem witness_HiddenElementsNeverReachARegister :
    exec (.ldVxDt 0#4) { State.reset with dt := 9#8 } = .next ({ State.reset with dt := 9#8 }.advance.setReg 0#4 9#8) :=
  rfl
theorem witness_LoadCopiesTheProgramOrRefusesIt :
    System.reset.phase = .fresh ∧ (List.replicate 3584 0#8).length ≤ 3584 ∧
      (List.replicate 3585 0#8).length > 3584 ∧ { System.reset with phase := .loaded }.phase ≠ .fresh := by
  rw [List.length_replicate, List.length_replicate]
  decide
theorem witness_CycleTransactionRunsOneStep :
    step System.reset.core = .next State.reset.advance ∧
      transact .cycle System.reset = some ({ core := State.reset.advance, phase := .running }, .done) := ⟨rfl, rfl⟩
theorem witness_EveryParameterKeepsTheInvariant :
    State.reset.Inv ∧ stepWith wrapping 0#8 State.reset = .next State.reset.advance := ⟨by decide, rfl⟩
/-- A 16th push, the last that both policies take. -/
theorem witness_PoliciesMatterOnlyWhereTheSpecFaults :
    ranWith Params.spec 0x2300#16 (fun s => { s with sp := 15 }) (fun t => t.fault == 0#3 && t.sp == 16) = true ∧
    ranWith Params.spec 0xFF55#16 (·.setI 0xFF0#16) (·.fault == 0#3) = true ∧
    ranWith Params.spec 0x0000#16 (·.jump 0xFFE#16) (·.fault == 0#3) = true ∧
    ranWith Params.spec 0xE09E#16 (·.setReg 0#4 15#8) (·.fault == 0#3) = true := by decide
theorem witness_ChoicesMatterOnlyWhereTheSpecSays :
    (∀ x kk, Instr.cls ≠ .rndVxKk x kk) ∧ (Instr.addVxVy 0xE#4 VF).flagIsDestination = false ∧
      (∀ j k : Fin 16, (State.reset.setKey 9 true).key[j.val] = true → (State.reset.setKey 9 true).key[k.val] = true →
        j = k) ∧
      decodeWith false 0x5121#16 ≠ decode 0x5121#16 ∧ decodeWith false 0x5120#16 = decode 0x5120#16 :=
  ⟨fun _ _ => Instr.noConfusion, by decide, by decide, by decide, by decide⟩
theorem witness_StoredByteReadsBack : (0xFFF : Nat) < 0x1000 := by decide
theorem witness_StoreIsSeenByTheNextFetch :
    let s := State.reset.setI 0x202#16
    1 ≤ (1#4 : Reg).toNat ∧ s.i.toNat + (1#4 : Reg).toNat ≤ 0xFFF ∧ s.i = s.pc + 2#16 := by decide
theorem witness_CallPushesTheAdvancedPc :
    State.reset.sp.val < 16 ∧ { State.reset with sp := 15 }.sp.val < 16 := by decide
theorem witness_RetPopsThePc :
    { State.reset with sp := 1 }.sp.val ≠ 0 ∧ { State.reset with sp := 16 }.sp.val ≠ 0 := by decide
theorem witness_StackFaultsChangeNothingElse :
    { State.reset with sp := 16 }.sp.val = 16 ∧ State.reset.sp.val = 0 := by decide
theorem witness_RetComesBackAfterTheCall : { State.reset with sp := 15 }.sp.val < 16 := by decide
theorem witness_SelfJumpAndKeyWaitAreFixedPoints :
    (start 0x1200#16 id).fetched = some (.instr (.jp 0x200#12)) ∧
      (0x200#12).setWidth 16 = (start 0x1200#16 id).pc ∧ (start 0x1200#16 id).fault = 0#3 ∧
      (start 0xF10A#16 id).fetched = some (.instr (.ldVxK 1#4)) ∧
      ∀ k : Fin 16, (start 0xF10A#16 id).key[k.val] = false := by decide
theorem witness_AddWritesSumAndCarry : (0#4 : Reg) ≠ VF := by decide
theorem witness_LdBStoresTheDigits : (State.reset.setI 0xFFD#16).i.toNat + 2 ≤ 0xFFF := by decide
theorem witness_LdMemStoresTheRegisters :
    (State.reset.setI 0xFF0#16).i.toNat + (0xF#4 : Reg).toNat ≤ 0xFFF ∧
      (State.reset.setI 0xFFF#16).i.toNat + (0#4 : Reg).toNat ≤ 0xFFF := by decide
theorem witness_LdVxMemLoadsTheRegisters :
    (State.reset.setI 0xFF0#16).i.toNat + (0xF#4 : Reg).toNat ≤ 0xFFF := by decide
theorem witness_StoreThenLoadRestoresTheRegisters :
    (State.reset.setI 0x300#16).i.toNat + (0xF#4 : Reg).toNat ≤ 0xFFF := by decide
theorem witness_DataAccessAboveMemoryFaults :
    1 ≤ (1#4 : Nibble).toNat ∧ (State.reset.setI 0x1000#16).i.toNat + (1#4 : Nibble).toNat - 1 > 0xFFF ∧
      (State.reset.setI 0xFFE#16).i.toNat + 2 > 0xFFF ∧
      (State.reset.setI 0xFF1#16).i.toNat + (0xF#4 : Reg).toNat > 0xFFF := by decide
theorem witness_DrwFlipsTheSpriteAndFlagsCollision :
    (0#4 : Nibble).toNat = 0 ∧ (State.reset.setI 0xFFF#16).i.toNat + (1#4 : Nibble).toNat - 1 ≤ 0xFFF := by decide
/-- Some pixel is covered by a sprite, and one is not. -/
theorem witness_SpriteCovers : SpriteCovers (sprite [0x80#8] State.reset) 0#4 0#4 1#4 0 0 ∧
    ¬ SpriteCovers (sprite [0x80#8] State.reset) 0#4 0#4 0#4 0 0 := by
  refine ⟨⟨0, 0, 0x80#8, by decide, by decide, by decide, by decide, by decide, by decide⟩, ?_⟩
  rintro ⟨r, -, -, hr, -⟩
  exact absurd hr (Nat.not_lt_zero r)
theorem witness_DrawingTwiceErases :
    (0#4 : Reg) ≠ VF ∧ (1#4 : Reg) ≠ VF ∧ (State.reset.setI 0x050#16).i.toNat + (5#4 : Nibble).toNat - 1 ≤ 0xFFF ∧
      State.reset.fb = Vector.replicate 64 (Vector.replicate 32 false) := ⟨by decide, by decide, by decide, rfl⟩
theorem witness_SkipsOnAKey : ((State.reset.setReg 1#4 15#8).reg 1#4).toNat < 16 := by decide
theorem witness_KeyIndexAboveFifteenFaults : ((State.reset.setReg 1#4 16#8).reg 1#4).toNat > 15 := by decide
theorem witness_KeyWaitWaitsOrTakesTheLowestKey :
    (∀ k : Fin 16, State.reset.key[k.val] = false) ∧ (State.reset.setKey 15 true).key[15] = true ∧
      ∀ j : Fin 16, j < 15 → (State.reset.setKey 15 true).key[j.val] = false := by decide
theorem witness_SetsTheSoundTimerThatNothingReads :
    exec (.ldStVx 0#4) State.reset = .next State.reset.advance := rfl

end Sys2Proof.Tests
end

section
/-! SUPPORT. The family 40_cycle_and_control.md: the no-op of an unrecognised word (R131), `1nnn` (R133), the skips on a
byte (R135, R136) and the complete list of ways pc changes (R142). First what a cycle fetches, what a control transfer
leaves alone and what a fault excludes, then pc after each instruction, then the obligations. -/

namespace Sys2Proof.Control
open Sys2Proof Sys2Proof.Machine Sys2Proof.Laws

/-! ### Fetch and cycle -/

/-- A byte that reads lies below 0x1000 and is the one memory holds (20 R70). -/
theorem readByte_eq_some {s : State} {a : Nat} {b : Byte} :
    s.readByte a = some b ↔ a < Config.memSize ∧ memGet s.mem a = b := by
  simp [State.readByte]

/-- Where the two bytes at `pc` read, a cycle runs their word, decoded (20 R72, 40 R130). -/
theorem fetched_of_readByte {s : State} {hi lo : Byte} (hhi : s.readByte s.pc.toNat = some hi)
    (hlo : s.readByte (s.pc.toNat + 1) = some lo) : s.fetched = some (decode (opcodeOfBytes hi lo)) := by
  obtain ⟨-, hhi⟩ := readByte_eq_some.mp hhi
  obtain ⟨hlt, hlo⟩ := readByte_eq_some.mp hlo
  rw [fetched_eq, fetch_of_le (by simp only [Config.memSize] at hlt; omega), hhi, hlo, Option.map_some]

/-- A cycle on a word of no row advances pc and does nothing else (40 R131). -/
theorem step_of_fetched_unrecognised {s : State} {op : Opcode} (hs : s.fault = 0#3)
    (h : s.fetched = some (.unrecognised op)) : step s = .next s.advance := by
  simp only [step, hs, if_true, h, execUnrecognised]

/-- A cycle whose fetch starts above 0xFFE latches code 1 (20 R75, 60 R251). -/
theorem step_of_pc_above {s : State} (hs : s.fault = 0#3) (h : s.pc.toNat > 0xFFE) :
    step s = .next { s with fault := 1#3 } := by
  simp only [step, hs, if_true, fetched_eq, fetch_of_gt h, Option.map_none, raise_eq, Fault.code]

/-- The row the decoder finds is the instruction it answers (30 R112). -/
theorem decode_eq_instr {op : Opcode} {i : Instr} (h : decodeRow true op = some i) : decode op = .instr i := by
  simp only [decode, decodeWith, spec_decodeStrict, h]

/-! ### What a control transfer leaves alone -/

/-- A jump moves the program counter and nothing else (40 R130). -/
theorem onlyPc_jump (s : State) (w : Word) : OnlyPc s (s.jump w) := ⟨rfl, fun _ => rfl⟩

/-- A skip moves the program counter and nothing else (40 R140). -/
theorem onlyPc_skipIf (s : State) (c : Bool) : OnlyPc s (s.skipIf c) := by
  cases c
  · exact onlyPc_jump s _
  · exact onlyPc_jump s _

/-- A jump to where the program counter stands changes nothing (40 R133). -/
theorem jump_pc_self (s : State) : s.jump s.pc = s := rfl

/-! ### What a fault excludes -/

/-- No fault latches code 0, which means none (10 R41, 60 R251). -/
theorem code_ne_zero (f : Fault) : f.code ≠ 0#3 := by
  cases f <;> simp [Fault.code]

/-- A raised fault answers no state with the latch at 0. -/
theorem raise_ne_next_of_unfaulted {f : Fault} {s t : State} (ht : t.fault = 0#3) : raise f s ≠ .next t := by
  rw [raise_eq]
  rintro ⟨⟩
  exact code_ne_zero f ht

/-- An access that ended unfaulted was allowed, so it had its effect (20 R75). -/
theorem next_of_conditional {c : Bool} {f : Fault} {s t u : State} (ht : t.fault = 0#3)
    (h : (if c = true then .next u else raise f s : Result) = .next t) : u = t := by
  cases c
  · exact absurd h (raise_ne_next_of_unfaulted ht)
  · exact Host.Outcome.next.inj h

/-- A fault leaves pc where it was (40 R142, 60 R252). -/
theorem exec_pc_of_faulted {i : Instr} {s t : State} (hs : s.fault = 0#3) (h : exec i s = .next t)
    (ht : t.fault ≠ 0#3) : t.pc = s.pc := by
  obtain ⟨u, hu, hlatch⟩ := exec_latch i s
  obtain rfl : u = t := Host.Outcome.next.inj (hu.symm.trans h)
  rcases hlatch with hkept | ⟨f, hraised⟩
  · exact absurd (hkept.trans hs) ht
  · rw [hraised]

/-! ### pc after an instruction that could have faulted or waited -/

/-- `00EE` that did not fault goes to the entry it popped (40 R132). -/
theorem execRet_pc {s t : State} (ht : t.fault = 0#3) (h : execRet s = .next t) :
    ∃ hk : s.sp.val - 1 < 16, t.pc = s.stk[s.sp.val - 1] := by
  by_cases hsp : s.sp.val = 0
  · rw [execRet, execRetWith, pop_empty hsp] at h
    exact absurd h (raise_ne_next_of_unfaulted ht)
  · rw [execRet_nonempty hsp] at h
    cases h
    exact ⟨by omega, rfl⟩

/-- `2nnn` that did not fault goes to `nnn` (40 R134). -/
theorem execCall_pc {s t : State} {nnn : Addr12} (ht : t.fault = 0#3) (h : execCall nnn s = .next t) :
    t.pc = zext16 nnn := by
  by_cases hsp : s.sp.val = 16
  · rw [execCall, execCallWith, push_full _ hsp] at h
    exact absurd h (raise_ne_next_of_unfaulted ht)
  · rw [execCall_room nnn (by omega)] at h
    cases h
    rfl

/-- `Ex9E` that did not fault skips when the key is down (44 R230). -/
theorem execSkpVx_pc {s t : State} {x : Reg} (ht : t.fault = 0#3) (h : execSkpVx x s = .next t) :
    t.pc = s.pc + (if s.key[(s.reg x).toNat]? = some true then 4#16 else 2#16) := by
  by_cases hx : (s.reg x).toNat < 16
  · rw [execSkpVx_key hx] at h
    cases h
    simp [hx]
  · rw [execSkpVx, execSkpVxWith, spec_keyPolicy, keyAt_of_ge (by omega)] at h
    exact absurd h (raise_ne_next_of_unfaulted ht)

/-- `ExA1` that did not fault skips when the key is up (44 R231). -/
theorem execSknpVx_pc {s t : State} {x : Reg} (ht : t.fault = 0#3) (h : execSknpVx x s = .next t) :
    t.pc = s.pc + (if s.key[(s.reg x).toNat]? = some false then 4#16 else 2#16) := by
  by_cases hx : (s.reg x).toNat < 16
  · rw [execSknpVx_key hx] at h
    cases h
    simp [hx]
  · rw [execSknpVx, execSknpVxWith, spec_keyPolicy, keyAt_of_ge (by omega)] at h
    exact absurd h (raise_ne_next_of_unfaulted ht)

/-- `Fx0A` stays where it is with no key down and else advances (44 R232). -/
theorem execLdVxK_pc {s t : State} {x : Reg} (h : execLdVxK x s = .next t) :
    t.pc = s.pc + (if ∀ k : Fin 16, s.key[k.val] = false then 0#16 else 2#16) := by
  rw [execLdVxK, execLdVxKWith] at h
  cases hit : s.keyHit Params.spec.keyWaitPick with
  | none =>
    rw [hit] at h
    cases h
    rw [if_pos (keyHit_none.mp hit), BitVec.add_zero]
  | some k =>
    rw [hit] at h
    cases h
    have hdown : ¬ ∀ k : Fin 16, s.key[k.val] = false := fun hup => by
      rw [keyHit_none.mpr hup] at hit
      cases hit
    rw [if_neg hdown, setReg_pc, advance_pc]

/-! ### The obligations -/

/-- Settles O12: a fault keeps pc by what it can do to the latch; without one, the instructions that may fault or wait go
by their own lemmas above and every other answers its one next state. -/
theorem pcChangesOnlyAsListed : Obligations.PcChangesOnlyAsListed := by
  intro i s t hs h
  refine ⟨exec_pc_of_faulted hs h, fun ht => ?_⟩
  cases i
  case ret => exact execRet_pc ht h
  case call nnn => exact execCall_pc ht h
  case skpVx x => exact execSkpVx_pc ht h
  case sknpVx x => exact execSknpVx_pc ht h
  case ldVxK x => exact execLdVxK_pc h
  case drw | ldBVx | ldMemVx | ldVxMem => exact congrArg State.pc (next_of_conditional ht h).symm
  case seVxKk | sneVxKk | seVxVy | sneVxVy =>
    obtain rfl := Host.Outcome.next.inj h
    simp
  all_goals exact congrArg State.pc (Host.Outcome.next.inj h).symm

/-- Settles O7: the two bytes are what the cycle fetches, and their word has no row. -/
theorem unrecognisedWordOnlyAdvancesThePc : Obligations.UnrecognisedWordOnlyAdvancesThePc := by
  intro s hi lo op hs hhi hlo hdec
  have hop : decode (opcodeOfBytes hi lo) = .unrecognised op := (BytesDecoded.word.inj hdec).1
  exact step_of_fetched_unrecognised hs ((fetched_of_readByte hhi hlo).trans (congrArg some hop))

/-- Settles O25: `1nnn` is a jump, which to its own address is the identity and to 0xFFF leaves a pc above 0xFFE. -/
theorem jpSetsThePc : Obligations.JpSetsThePc := by
  intro s nnn
  refine ⟨decode_eq_instr (by simp [decodeRow]), s.jump (zext16 nnn), rfl, rfl, onlyPc_jump s _, ?_, ?_⟩
  · intro hself
    rw [zext16, hself, jump_pc_self]
  · rintro rfl hs
    exact step_of_pc_above hs (by rw [jump_pc]; decide)

/-- Settles O30: both are the skip rule on a comparison with `kk`. -/
theorem skipsOnAByte : Obligations.SkipsOnAByte := by
  intro s x kk
  refine ⟨decode_eq_instr (by simp [decodeRow]), decode_eq_instr (by simp [decodeRow]),
    ⟨s.skipIf (s.reg x == kk), rfl, ?_, onlyPc_skipIf s _⟩, ⟨s.skipIf (s.reg x != kk), rfl, ?_, onlyPc_skipIf s _⟩⟩
  · simp
  · simp

end Sys2Proof.Control
end

section
/-! SUPPORT. The family 41_load_and_alu.md: the instructions that write one register and no flag, `6xkk` and `7xkk`
(R160, R161) and `8xy0` to `8xy3` (R162 to R165). First what a register write after the advance of pc leaves alone, then
the obligations. -/

namespace Sys2Proof.LoadAlu
open Sys2Proof Sys2Proof.Machine Sys2Proof.Laws Sys2Proof.Control

/-! ### An instruction that writes one register -/

/-- Advancing pc and writing `V[x]` changes nothing else, the flag register included unless it is `x` (41 R160). -/
theorem onlyRegs_advance_setReg (s : State) (x : Reg) (b : Byte) : OnlyRegs [x] s (s.advance.setReg x b) := by
  refine ⟨rfl, fun r hr => ?_, fun _ => rfl⟩
  rw [reg_setReg_of_ne _ _ (List.ne_of_not_mem_cons hr), advance_reg]

/-- An instruction that advances pc and writes `b` to `V[x]` completes with whatever is known of `b` true of `V[x]`, with
pc advanced by 2 and with nothing else changed. -/
theorem completes_of_exec_setReg (P : Byte → Prop) {i : Instr} {s : State} {x : Reg} {b : Byte}
    (h : exec i s = .next (s.advance.setReg x b)) (hb : P b) :
    ∃ t, exec i s = .next t ∧ P (t.reg x) ∧ t.pc = s.pc + 2#16 ∧ OnlyRegs [x] s t := by
  refine ⟨_, h, ?_, by rw [setReg_pc, advance_pc], onlyRegs_advance_setReg s x b⟩
  rwa [reg_setReg_self]

/-! ### The obligations -/

/-- Settles O34: both write one register, and the byte `7xkk` writes is the sum of bit vectors, which wraps at 256. -/
theorem loadsAndAddsAByte : Obligations.LoadsAndAddsAByte := by
  intro s x kk
  refine ⟨decode_eq_instr (by simp [decodeRow]), decode_eq_instr (by simp [decodeRow]), ?ld, ?add⟩
  case ld => exact completes_of_exec_setReg (· = kk) rfl rfl
  case add =>
    exact completes_of_exec_setReg (·.toNat = ((s.reg x).toNat + kk.toNat) % 256) rfl (BitVec.toNat_add _ _)

/-- Settles O35: all four write one register; bit `k` of what they write is the connective of the operands' bits `k`. -/
theorem copiesAndCombinesRegisters : Obligations.CopiesAndCombinesRegisters := by
  intro s x y
  refine ⟨decode_eq_instr (by simp [decodeRow, decodeFam8]), decode_eq_instr (by simp [decodeRow, decodeFam8]),
    decode_eq_instr (by simp [decodeRow, decodeFam8]), decode_eq_instr (by simp [decodeRow, decodeFam8]),
    ?ld, ?or, ?and, ?xor⟩
  case ld => exact completes_of_exec_setReg (· = s.reg y) rfl rfl
  case or =>
    exact completes_of_exec_setReg (fun b => ∀ k, b.getLsbD k = ((s.reg x).getLsbD k || (s.reg y).getLsbD k)) rfl
      fun _ => BitVec.getLsbD_or
  case and =>
    exact completes_of_exec_setReg (fun b => ∀ k, b.getLsbD k = ((s.reg x).getLsbD k && (s.reg y).getLsbD k)) rfl
      fun _ => BitVec.getLsbD_and
  case xor =>
    exact completes_of_exec_setReg (fun b => ∀ k, b.getLsbD k = ((s.reg x).getLsbD k ^^ (s.reg y).getLsbD k)) rfl
      fun _ => BitVec.getLsbD_xor

end Sys2Proof.LoadAlu
end

section
/-! SUPPORT. The family 42_index_and_memory.md: the instructions that write `I` and nothing else, `Annn` (R190) and
`Fx29` (R192). First the two values they write and what a write of `I` after the advance of pc leaves alone, then the
obligation. -/

namespace Sys2Proof.IndexMemory
open Sys2Proof Sys2Proof.Machine Sys2Proof.Laws Sys2Proof.Control

/-! ### The values written to `I` -/

/-- `nnn` keeps its value at 16 bits (42 R190). -/
theorem toNat_zext16 (nnn : Addr12) : (zext16 nnn).toNat = nnn.toNat :=
  BitVec.toNat_setWidth_of_le (by decide)

/-- A 12-bit address is one of memory's. -/
theorem toNat_zext16_le (nnn : Addr12) : (zext16 nnn).toNat ≤ 0xFFF := by
  rw [toNat_zext16]
  exact Nat.le_of_lt_succ nnn.isLt

/-- The glyph address of any byte, not only of a digit, is computed without wrap: it is at most 0x54B (42 R192). -/
theorem toNat_glyphAddr (b : Byte) : (glyphAddr b).toNat = 0x050 + 5 * b.toNat := by
  have hb : b.toNat < 256 := b.isLt
  rw [glyphAddr, BitVec.toNat_ofNat, Config.fontBase, Config.glyphBytes]
  exact Nat.mod_eq_of_lt (by omega)

/-! ### An instruction that writes the index register -/

/-- Advancing pc and writing `I` changes nothing else (42 R190, R192). -/
theorem onlyIndex_advance_setI (s : State) (w : Word) : OnlyIndex [] s (s.advance.setI w) :=
  ⟨rfl, fun _ _ => rfl, fun _ => rfl⟩

/-! ### The obligation -/

/-- Settles O40: both advance pc and write `I`, one the zero-extended address and the other the glyph's. -/
theorem setsTheIndexRegister : Obligations.SetsTheIndexRegister := by
  intro s nnn x
  refine ⟨decode_eq_instr (by simp [decodeRow]), decode_eq_instr (by simp [decodeRow, decodeFamF]), ?ldI, ?ldF⟩
  case ldI =>
    exact ⟨s.advance.setI (zext16 nnn), rfl, toNat_zext16 nnn, toNat_zext16_le nnn, rfl, onlyIndex_advance_setI s _⟩
  case ldF =>
    exact ⟨s.advance.setI (glyphAddr (s.reg x)), rfl, toNat_glyphAddr _, rfl, onlyIndex_advance_setI s _⟩

end Sys2Proof.IndexMemory
end

section
/-! SUPPORT. The family 43_display.md: `00E0` (R210), whose one next state is a cleared display after the advance of
pc. -/

namespace Sys2Proof.Display
open Sys2Proof Sys2Proof.Machine Sys2Proof.Laws

/-- Settles O47: the framebuffer written does not depend on the prior one, and neither `V` nor memory is written. -/
theorem clsClearsTheFramebuffer : Obligations.ClsClearsTheFramebuffer := by
  refine ⟨by decide, fun s => ?_⟩
  refine ⟨{ s.advance with fb := Vector.replicate 64 (Vector.replicate 32 false), rd := true }, rfl, ?pixels, rfl,
    advance_pc s, ?onlyDisplay, ?memory⟩
  case pixels => exact pixel_clear
  case onlyDisplay => rfl
  case memory => exact fun _ => rfl

end Sys2Proof.Display
end

section
/-! SUPPORT. The family 44_keypad_and_timers.md: `Fx07` (R233) and `Fx15` (R234), which move the delay timer. First what
a write of the timer after the advance of pc leaves alone, then the obligation. -/

namespace Sys2Proof.Timers
open Sys2Proof Sys2Proof.Machine Sys2Proof.Laws Sys2Proof.Control Sys2Proof.LoadAlu

/-- Advancing pc and writing the delay timer changes nothing else, memory included (44 R234). -/
theorem onlyTimer_advance_setDt (s : State) (b : Byte) :
    { s.advance with dt := b } = { s with dt := b, pc := s.pc + 2#16 } ∧ KeepsMemory s { s.advance with dt := b } :=
  ⟨rfl, fun _ => rfl⟩

/-- Settles O53: `Fx07` writes one register, the timer not being it, and `Fx15` writes the timer alone. -/
theorem movesTheDelayTimer : Obligations.MovesTheDelayTimer := by
  intro s x
  refine ⟨decode_eq_instr (by simp [decodeRow, decodeFamF]), decode_eq_instr (by simp [decodeRow, decodeFamF]),
    ?read, ?write⟩
  case read => exact completes_of_exec_setReg (· = s.dt) rfl rfl
  case write =>
    exact ⟨{ s.advance with dt := s.reg x }, rfl, rfl, advance_pc s, onlyTimer_advance_setDt s _⟩

end Sys2Proof.Timers
end

section
/-! SUPPORT. The encoding (30_encoding.md): the decoder and the encoder are inverse (R100 to R106), the mask and match
columns are the decoder's (R105, R106), and the unrecognised words are those listed (R107). First what each level of the
decoder answers, both ways, then the rows, then the obligations. -/

namespace Sys2Proof.Encoding
open Sys2Proof Sys2Proof.Machine Sys2Proof.Laws Sys2Proof.Control

/-! ### Decoding an encoding -/

/-- The decoder finds the row of every encoding, strict or not (30 R104 to R106). -/
theorem decodeRow_encode (strict : Bool) (i : Instr) : decodeRow strict (encode i) = some i := by
  cases i
  case cls | ret => cases strict <;> rfl
  case seVxVy | sneVxVy => simp [encode, decodeRow, matchesLow0]
  case ldVxVy | orVxVy | andVxVy | xorVxVy | addVxVy | subVxVy | shrVx | subnVxVy | shlVx =>
    simp [encode, decodeRow, decodeFam8]
  case skpVx | sknpVx => simp [encode, decodeRow, decodeFamE]
  case ldVxDt | ldVxK | ldDtVx | ldStVx | addIVx | ldFVx | ldBVx | ldMemVx | ldVxMem =>
    simp [encode, decodeRow, decodeFamF]
  all_goals simp [encode, decodeRow]

/-- Decoding an encoding gives the instruction (30 R112). -/
theorem decode_encode (i : Instr) : decode (encode i) = .instr i :=
  decode_eq_instr (decodeRow_encode true i)

/-! ### Encoding what was decoded -/

/-- A word is an instruction exactly when its row is (30 R112). -/
theorem decode_eq_instr_iff {op : Opcode} {i : Instr} : decode op = .instr i ↔ decodeRow true op = some i := by
  refine ⟨fun h => ?_, decode_eq_instr⟩
  simp only [decode, decodeWith, spec_decodeStrict] at h
  split at h
  case h_1 j hj => rwa [← Decoded.instr.inj h]
  case h_2 => cases h

/-- A word of family `f` is `f` and its address (30 R102). -/
theorem encNnn_of_fam {op : Opcode} {f : Nibble} (hf : opFam op = f) : encNnn f (opNnn op) = op := by
  rw [← hf, encNnn_fields]

/-- A word of family `f` is `f`, its `x` and its low byte (30 R102). -/
theorem encXkk_of_fam {op : Opcode} {f : Nibble} (hf : opFam op = f) : encXkk f (opX op) (opKk op) = op := by
  rw [← hf, encXkk_fields]

/-- A word of family `f` with selector `kk` is `f`, its `x` and `kk` (30 R102). -/
theorem encXkk_of_selector {op : Opcode} {f : Nibble} {kk : Byte} (hf : opFam op = f) (hkk : opKk op = kk) :
    encXkk f (opX op) kk = op := by
  rw [← hf, ← hkk, encXkk_fields]

/-- A word of family `f` with selector `n` is `f`, its `x`, its `y` and `n` (30 R102). -/
theorem encXyn_of_selector {op : Opcode} {f n : Nibble} (hf : opFam op = f) (hn : opN op = n) :
    encXyn f (opX op) (opY op) n = op := by
  rw [← hf, ← hn, encXyn_fields]

theorem encode_of_decodeFam0 {op : Opcode} {i : Instr} (h : decodeFam0 true op = some i) : encode i = op := by
  simp only [decodeFam0, matchesFix, if_true, beq_iff_eq] at h
  split at h
  · cases h; exact Eq.symm ‹_›
  · split at h
    · cases h; exact Eq.symm ‹_›
    · cases h

theorem encode_of_decodeFam8 {op : Opcode} {i : Instr} (hf : opFam op = 0x8#4) (h : decodeFam8 op = some i) :
    encode i = op := by
  unfold decodeFam8 at h
  split at h
  case h_10 => cases h
  all_goals
    rename_i hn
    cases h
    exact encXyn_of_selector hf hn

theorem encode_of_decodeFamE {op : Opcode} {i : Instr} (hf : opFam op = 0xE#4) (h : decodeFamE op = some i) :
    encode i = op := by
  unfold decodeFamE at h
  split at h
  case h_3 => cases h
  all_goals
    rename_i hkk
    cases h
    exact encXkk_of_selector hf hkk

theorem encode_of_decodeFamF {op : Opcode} {i : Instr} (hf : opFam op = 0xF#4) (h : decodeFamF op = some i) :
    encode i = op := by
  unfold decodeFamF at h
  split at h
  case h_10 => cases h
  all_goals
    rename_i hkk
    cases h
    exact encXkk_of_selector hf hkk

/-- A printed low 0 is matched by the low nibble 0 alone (30 R105). -/
theorem opN_of_matchesLow0 {op : Opcode} (h : matchesLow0 true op = true) : opN op = 0x0#4 := by
  simpa [matchesLow0] using h

/-- What the strict decoder finds for a word encodes to that word, family by family (30 R104, R105). -/
theorem encode_of_decodeRow {op : Opcode} {i : Instr} (h : decodeRow true op = some i) : encode i = op := by
  unfold decodeRow at h
  split at h
  case h_1 => exact encode_of_decodeFam0 h
  case h_6 hf | h_10 hf =>
    split at h
    · cases h
      exact encXyn_of_selector hf (opN_of_matchesLow0 ‹_›)
    · cases h
  case h_9 hf => exact encode_of_decodeFam8 hf h
  case h_15 hf => exact encode_of_decodeFamE hf h
  case h_16 =>
    have hf : opFam op = 0xF#4 := by
      simp only [imp_false] at *
      bv_omega
    exact encode_of_decodeFamF hf h
  case h_2 hf | h_3 hf | h_11 hf | h_12 hf =>
    cases h
    exact encNnn_of_fam hf
  case h_14 hf =>
    cases h
    exact encXyn_of_selector hf rfl
  all_goals
    rename_i hf
    cases h
    exact encXkk_of_fam hf

/-! ### The mask and match columns -/

/-- Every encoding has its row's constant bits (30 R105, R106). -/
theorem encode_and_mask (i : Instr) : encode i &&& i.mask = i.matchBits := by
  cases i
  case cls => exact EncodesInRow.cls
  case ret => exact EncodesInRow.ret
  case jp | call | ldI | jpV0 => exact EncodesInRow.nnn_row _ _
  case seVxKk | sneVxKk | ldVxKk | addVxKk | rndVxKk => exact EncodesInRow.xkk_row _ _ _
  case drw x y n => exact EncodesInRow.drw x y n
  case skpVx | sknpVx | ldVxDt | ldVxK | ldDtVx | ldStVx | addIVx | ldFVx | ldBVx | ldMemVx | ldVxMem =>
    exact EncodesInRow.xss_row _ _ _
  all_goals exact EncodesInRow.xys_row _ _ _ _

/-- The mask of the row whose match column is `w` (30 R106). -/
def maskOfMatch (w : Opcode) : Opcode :=
  match opFam w with
  | 0x0#4 => 0xFFFF#16
  | 0x5#4 | 0x8#4 | 0x9#4 => 0xF00F#16
  | 0xE#4 | 0xF#4 => 0xF0FF#16
  | _ => 0xF000#16

/-- The match column tells the rows apart, so it fixes the mask (30 R106). -/
theorem mask_eq_maskOfMatch (i : Instr) : i.mask = maskOfMatch i.matchBits := by
  cases i <;> simp only [Instr.mask, Instr.matchBits] <;> rfl

theorem opFam_and (a b : Opcode) : opFam (a &&& b) = opFam a &&& opFam b := BitVec.extractLsb'_and

theorem opN_and (a b : Opcode) : opN (a &&& b) = opN a &&& opN b := BitVec.extractLsb'_and

theorem opKk_and (a b : Opcode) : opKk (a &&& b) = opKk a &&& opKk b := BitVec.extractLsb'_and

/-- Every mask keeps the family (30 R105). -/
theorem opFam_of_row {op : Opcode} {i : Instr} (h : op &&& i.mask = i.matchBits) : opFam op = opFam i.matchBits := by
  have hm : opFam i.mask = BitVec.allOnes 4 := by cases i <;> simp only [Instr.mask] <;> rfl
  rw [← h, opFam_and, hm, BitVec.and_allOnes]

/-- A mask that ends in F keeps the low nibble (30 R105). -/
theorem opN_of_row {op m w : Opcode} (h : op &&& m = w) (hm : opN m = BitVec.allOnes 4) : opN op = opN w := by
  rw [← h, opN_and, hm, BitVec.and_allOnes]

/-- A mask that ends in FF keeps the low byte (30 R105). -/
theorem opKk_of_row {op m w : Opcode} (h : op &&& m = w) (hm : opKk m = BitVec.allOnes 8) : opKk op = opKk w := by
  rw [← h, opKk_and, hm, BitVec.and_allOnes]

/-- A word is the encoding of an instruction exactly when it decodes to it (30 R112). -/
theorem decode_of_encode_eq {op : Opcode} {i : Instr} (h : encode i = op) : decode op = .instr i :=
  h ▸ decode_encode i

/-- A word of a row is the encoding of an instruction of that row, whose operands are the word's fields (30 R105). -/
theorem exists_encode_of_row {op : Opcode} {i : Instr} (h : op &&& i.mask = i.matchBits) :
    ∃ j, encode j = op ∧ j.matchBits = i.matchBits := by
  have hf := opFam_of_row h
  cases i <;> simp only [Instr.mask, Instr.matchBits] at h hf ⊢
  case cls => exact ⟨.cls, ((BitVec.and_allOnes (x := op)).symm.trans h).symm, rfl⟩
  case ret => exact ⟨.ret, ((BitVec.and_allOnes (x := op)).symm.trans h).symm, rfl⟩
  case jp => exact ⟨.jp (opNnn op), encNnn_of_fam hf, rfl⟩
  case call => exact ⟨.call (opNnn op), encNnn_of_fam hf, rfl⟩
  case seVxKk => exact ⟨.seVxKk (opX op) (opKk op), encXkk_of_fam hf, rfl⟩
  case sneVxKk => exact ⟨.sneVxKk (opX op) (opKk op), encXkk_of_fam hf, rfl⟩
  case seVxVy => exact ⟨.seVxVy (opX op) (opY op), encXyn_of_selector hf (opN_of_row h rfl), rfl⟩
  case ldVxKk => exact ⟨.ldVxKk (opX op) (opKk op), encXkk_of_fam hf, rfl⟩
  case addVxKk => exact ⟨.addVxKk (opX op) (opKk op), encXkk_of_fam hf, rfl⟩
  case ldVxVy => exact ⟨.ldVxVy (opX op) (opY op), encXyn_of_selector hf (opN_of_row h rfl), rfl⟩
  case orVxVy => exact ⟨.orVxVy (opX op) (opY op), encXyn_of_selector hf (opN_of_row h rfl), rfl⟩
  case andVxVy => exact ⟨.andVxVy (opX op) (opY op), encXyn_of_selector hf (opN_of_row h rfl), rfl⟩
  case xorVxVy => exact ⟨.xorVxVy (opX op) (opY op), encXyn_of_selector hf (opN_of_row h rfl), rfl⟩
  case addVxVy => exact ⟨.addVxVy (opX op) (opY op), encXyn_of_selector hf (opN_of_row h rfl), rfl⟩
  case subVxVy => exact ⟨.subVxVy (opX op) (opY op), encXyn_of_selector hf (opN_of_row h rfl), rfl⟩
  case shrVx => exact ⟨.shrVx (opX op) (opY op), encXyn_of_selector hf (opN_of_row h rfl), rfl⟩
  case subnVxVy => exact ⟨.subnVxVy (opX op) (opY op), encXyn_of_selector hf (opN_of_row h rfl), rfl⟩
  case shlVx => exact ⟨.shlVx (opX op) (opY op), encXyn_of_selector hf (opN_of_row h rfl), rfl⟩
  case sneVxVy => exact ⟨.sneVxVy (opX op) (opY op), encXyn_of_selector hf (opN_of_row h rfl), rfl⟩
  case ldI => exact ⟨.ldI (opNnn op), encNnn_of_fam hf, rfl⟩
  case jpV0 => exact ⟨.jpV0 (opNnn op), encNnn_of_fam hf, rfl⟩
  case rndVxKk => exact ⟨.rndVxKk (opX op) (opKk op), encXkk_of_fam hf, rfl⟩
  case drw => exact ⟨.drw (opX op) (opY op) (opN op), encXyn_of_selector hf rfl, rfl⟩
  case skpVx => exact ⟨.skpVx (opX op), encXkk_of_selector hf (opKk_of_row h rfl), rfl⟩
  case sknpVx => exact ⟨.sknpVx (opX op), encXkk_of_selector hf (opKk_of_row h rfl), rfl⟩
  case ldVxDt => exact ⟨.ldVxDt (opX op), encXkk_of_selector hf (opKk_of_row h rfl), rfl⟩
  case ldVxK => exact ⟨.ldVxK (opX op), encXkk_of_selector hf (opKk_of_row h rfl), rfl⟩
  case ldDtVx => exact ⟨.ldDtVx (opX op), encXkk_of_selector hf (opKk_of_row h rfl), rfl⟩
  case ldStVx => exact ⟨.ldStVx (opX op), encXkk_of_selector hf (opKk_of_row h rfl), rfl⟩
  case addIVx => exact ⟨.addIVx (opX op), encXkk_of_selector hf (opKk_of_row h rfl), rfl⟩
  case ldFVx => exact ⟨.ldFVx (opX op), encXkk_of_selector hf (opKk_of_row h rfl), rfl⟩
  case ldBVx => exact ⟨.ldBVx (opX op), encXkk_of_selector hf (opKk_of_row h rfl), rfl⟩
  case ldMemVx => exact ⟨.ldMemVx (opX op), encXkk_of_selector hf (opKk_of_row h rfl), rfl⟩
  case ldVxMem => exact ⟨.ldVxMem (opX op), encXkk_of_selector hf (opKk_of_row h rfl), rfl⟩

/-! ### The unrecognised words -/

theorem toNat_opFam (op : Opcode) : (opFam op).toNat = op.toNat / 0x1000 := by
  have := op.isLt
  simp only [opFam, BitVec.extractLsb'_toNat, Nat.shiftRight_eq_div_pow]
  omega

theorem toNat_opN (op : Opcode) : (opN op).toNat = op.toNat % 0x10 := by
  simp [opN, BitVec.extractLsb'_toNat]

theorem toNat_opKk (op : Opcode) : (opKk op).toNat = op.toNat % 0x100 := by
  simp [opKk, BitVec.extractLsb'_toNat]

/-- A word is unrecognised exactly when it has no row (30 R107). -/
theorem decodeWith_eq_unrecognised_iff {strict : Bool} {op : Opcode} :
    decodeWith strict op = .unrecognised op ↔ decodeRow strict op = none := by
  unfold decodeWith
  cases decodeRow strict op <;> simp

theorem decodeFam0_eq_none_iff {op : Opcode} :
    decodeFam0 true op = none ↔ op.toNat ≠ 0x00E0 ∧ op.toNat ≠ 0x00EE := by
  simp only [decodeFam0, matchesFix, if_true, beq_iff_eq, ← BitVec.toNat_inj]
  split
  · simp_all
  · split <;> simp_all

theorem matchesLow0_eq_false_iff {op : Opcode} : matchesLow0 true op = false ↔ op.toNat % 0x10 ≠ 0 := by
  rw [← toNat_opN]
  simp [matchesLow0, ← BitVec.toNat_inj]

theorem decodeFam8_eq_none_iff {op : Opcode} :
    decodeFam8 op = none ↔ op.toNat % 0x10 ∈ [0x8, 0x9, 0xA, 0xB, 0xC, 0xD, 0xF] := by
  rw [← toNat_opN]
  unfold decodeFam8
  split
  case h_10 =>
    have := (opN op).isLt
    simp only [List.mem_cons, List.not_mem_nil, or_false, true_iff, imp_false] at *
    bv_omega
  all_goals
    rename_i hn
    simp [hn]

theorem decodeFamE_eq_none_iff {op : Opcode} : decodeFamE op = none ↔ op.toNat % 0x100 ∉ [0x9E, 0xA1] := by
  rw [← toNat_opKk]
  unfold decodeFamE
  split
  case h_3 =>
    simp only [List.mem_cons, List.not_mem_nil, or_false, true_iff, imp_false] at *
    bv_omega
  all_goals
    rename_i hkk
    simp [hkk]

theorem decodeFamF_eq_none_iff {op : Opcode} : decodeFamF op = none ↔
    op.toNat % 0x100 ∉ [0x07, 0x0A, 0x15, 0x18, 0x1E, 0x29, 0x33, 0x55, 0x65] := by
  rw [← toNat_opKk]
  unfold decodeFamF
  split
  case h_10 =>
    simp only [List.mem_cons, List.not_mem_nil, or_false, true_iff, imp_false] at *
    bv_omega
  all_goals
    rename_i hkk
    simp [hkk]

/-! ### The obligations -/

/-- Settles O1: the decoder finds the row of every encoding, and the two bytes of a word give it back. -/
theorem decodeOfEncodeGivesTheInstruction : Obligations.DecodeOfEncodeGivesTheInstruction := by
  intro i rest
  refine ⟨decode_encode i, ?_⟩
  show BytesDecoded.word (decode (opcodeOfBytes (opHi (encode i)) (opLo (encode i)))) rest = _
  rw [opcodeOfBytes_hi_lo, decode_encode]

/-- Settles O2, by the family of the word and then its selector. -/
theorem encodeOfDecodeGivesTheWord : Obligations.EncodeOfDecodeGivesTheWord :=
  fun _ _ h => encode_of_decodeRow (decode_eq_instr_iff.mp h)

/-- Settles O3: a word of a row is an encoding of that row, which decodes back; and what a word decodes to encodes to
the word and so lies in its row, whose mask the match column fixes. -/
theorem decodeFollowsTheMaskTable : Obligations.DecodeFollowsTheMaskTable := by
  intro op i
  constructor
  · intro hrow
    obtain ⟨j, henc, hj⟩ := exists_encode_of_row hrow
    exact ⟨j, decode_of_encode_eq henc, hj⟩
  · rintro ⟨j, hdec, hj⟩
    have henc : encode j = op := encode_of_decodeRow (decode_eq_instr_iff.mp hdec)
    rw [← henc, mask_eq_maskOfMatch i, ← hj, ← mask_eq_maskOfMatch j, encode_and_mask]

/-- Settles O4: a family's second-level decode finds nothing exactly on its listed words, and the ten families without
one find a row always. -/
theorem unrecognisedWordsAreExactlyTheListed : Obligations.UnrecognisedWordsAreExactlyTheListed := by
  intro op
  rw [decode, spec_decodeStrict, decodeWith_eq_unrecognised_iff, ← toNat_opFam]
  unfold decodeRow
  split
  case h_1 hf => simp [hf, decodeFam0_eq_none_iff]
  case h_6 hf | h_10 hf => simp [hf, ← matchesLow0_eq_false_iff]
  case h_9 hf => rw [decodeFam8_eq_none_iff]; simp [hf]
  case h_15 hf => rw [decodeFamE_eq_none_iff]; simp [hf]
  case h_16 =>
    have hf : opFam op = 0xF#4 := by
      simp only [imp_false] at *
      bv_omega
    rw [decodeFamF_eq_none_iff]; simp [hf]
  all_goals
    rename_i hf
    simp [hf]

/-- Settles O5: the nine words run through the decoder. -/
theorem sampleWordsDecode : Obligations.SampleWordsDecode := by
  unfold Obligations.SampleWordsDecode
  decide

end Sys2Proof.Encoding
end

section
/-! SUPPORT. What an instruction can do to the state, said once for any parameters: it latches the code it raises and
changes nothing else, or raises none and keeps to its footprint, the elements the spec gives it (10_state.md R47,
60_exceptions.md R251, R252). -/

namespace Sys2Proof.Frames
open Sys2Proof Sys2Proof.Machine Sys2Proof.Laws Sys2Proof.Control

/-! ### The footprint of an instruction and the code it raises -/

/-- Nothing changed but the elements the instruction may write; pc, where the instruction is no control transfer and no
key wait, went on by 2 (10 R30 to R42, R47; 40 R142). -/
def Footprint (i : Instr) (s t : State) : Prop :=
  match i with
  | .cls => t = { s with fb := t.fb, rd := true, pc := s.pc + 2#16 }
  | .ret => t = { s with sp := t.sp, pc := t.pc }
  | .call _ => t = { s with sp := t.sp, stk := t.stk, pc := t.pc }
  | .jp _ | .jpV0 _ | .seVxKk _ _ | .sneVxKk _ _ | .seVxVy _ _ | .sneVxVy _ _ | .skpVx _ | .sknpVx _ =>
    t = { s with pc := t.pc }
  | .ldVxKk _ _ | .addVxKk _ _ | .ldVxVy _ _ | .orVxVy _ _ | .andVxVy _ _ | .xorVxVy _ _ | .addVxVy _ _
  | .subVxVy _ _ | .shrVx _ _ | .subnVxVy _ _ | .shlVx _ _ | .ldVxDt _ => t = { s with v := t.v, pc := s.pc + 2#16 }
  | .ldVxK _ => t = { s with v := t.v, pc := t.pc }
  | .rndVxKk _ _ => t = { s with v := t.v, draws := t.draws, pc := s.pc + 2#16 }
  | .drw _ _ _ => t = { s with v := t.v, fb := t.fb, rd := true, pc := s.pc + 2#16 }
  | .ldI _ | .ldFVx _ => t = { s with i := t.i, pc := s.pc + 2#16 }
  | .addIVx _ | .ldVxMem _ => t = { s with v := t.v, i := t.i, pc := s.pc + 2#16 }
  | .ldDtVx _ => t = { s with dt := t.dt, pc := s.pc + 2#16 }
  | .ldStVx _ => t = { s with st := t.st, pc := s.pc + 2#16 }
  | .ldBVx _ => t = { s with mem := t.mem, pc := s.pc + 2#16 }
  | .ldMemVx _ => t = { s with mem := t.mem, i := t.i, pc := s.pc + 2#16 }

/-- The code the instruction raises from the state at the parameters `p`, 0 for none (60 R251, all but the fetch
fault). -/
def raisedCode (p : Params) (i : Instr) (s : State) : BitVec 3 :=
  match i with
  | .call _ => if (pushEntry p s.sp).isSome then 0#3 else 2#3
  | .ret => if (popEntry p s.sp).isSome then 0#3 else 3#3
  | .drw _ _ n => if spanAllowed p.memPolicy s.dataAddr n.toNat then 0#3 else 4#3
  | .ldBVx _ => if spanAllowed p.memPolicy s.dataAddr 3 then 0#3 else 4#3
  | .ldMemVx x | .ldVxMem x => if spanAllowed p.memPolicy s.dataAddr (blockLen x) then 0#3 else 4#3
  | .skpVx x | .sknpVx x => if (s.keyAt p.keyPolicy (s.reg x)).isSome then 0#3 else 5#3
  | .cls | .jp _ | .seVxKk _ _ | .sneVxKk _ _ | .seVxVy _ _ | .ldVxKk _ _ | .addVxKk _ _ | .ldVxVy _ _
  | .orVxVy _ _ | .andVxVy _ _ | .xorVxVy _ _ | .addVxVy _ _ | .subVxVy _ _ | .shrVx _ _ | .subnVxVy _ _
  | .shlVx _ _ | .sneVxVy _ _ | .ldI _ | .jpV0 _ | .rndVxKk _ _ | .ldVxDt _ | .ldVxK _ | .ldDtVx _ | .ldStVx _
  | .addIVx _ | .ldFVx _ => 0#3

/-- From `s` to `t` a code `c` was latched and nothing else changed, or, `c` being 0, no fault was raised and `P` holds
of `t`. -/
def LatchesOr (c : BitVec 3) (s t : State) (P : State → Prop) : Prop :=
  (c ≠ 0#3 ∧ t = { s with fault := c }) ∨ (c = 0#3 ∧ P t)

/-- A data access latches code 4 exactly when it may not go on (20 R75). -/
theorem latchesOr_of_access {b : Bool} {i0 : Word} {s t u : State} {P : State → Prop}
    (h : (if b = true then .next u else raise (.dataAddressOutOfRange i0) s : Result) = .next t) (hu : P u) :
    LatchesOr (if b then 0#3 else 4#3) s t P := by
  cases b
  · exact .inl ⟨by decide, (Host.Outcome.next.inj h).symm⟩
  · exact .inr ⟨rfl, Host.Outcome.next.inj h ▸ hu⟩

/-- A skip on a key latches code 5 exactly when there is no such key (44 R230, R231). -/
theorem latchesOr_of_key {k : Option Bool} {pc0 : Word} {s t : State} {cond : Bool → Bool}
    (h : (match k with
      | none => raise (.keyIndexOutOfRange pc0) s
      | some down => .next (s.skipIf (cond down)) : Result) = .next t) :
    LatchesOr (if k.isSome then 0#3 else 5#3) s t fun t => t = { s with pc := t.pc } := by
  cases k with
  | none => exact .inl ⟨by decide, (Host.Outcome.next.inj h).symm⟩
  | some down => exact .inr ⟨rfl, Host.Outcome.next.inj h ▸ (onlyPc_skipIf s _).1⟩

/-- `00EE` latches code 3 exactly when there is no entry to pop (40 R132). -/
theorem execRetWith_cases {p : Params} {s t : State} (h : execRetWith p s = .next t) :
    LatchesOr (raisedCode p .ret s) s t (Footprint .ret s) := by
  simp only [execRetWith, State.pop] at h
  rw [raisedCode]
  cases hk : popEntry p s.sp with
  | none =>
    rw [hk] at h
    exact .inl ⟨by decide, (Host.Outcome.next.inj h).symm⟩
  | some k =>
    rw [hk] at h
    refine .inr ⟨rfl, ?_⟩
    rw [← Host.Outcome.next.inj h]
    rfl

/-- `2nnn` latches code 2 exactly when there is no entry to push (40 R134). -/
theorem execCallWith_cases {p : Params} {nnn : Addr12} {s t : State} (h : execCallWith p nnn s = .next t) :
    LatchesOr (raisedCode p (.call nnn) s) s t (Footprint (.call nnn) s) := by
  simp only [execCallWith, State.push] at h
  rw [raisedCode]
  cases hk : pushEntry p s.sp with
  | none =>
    rw [hk] at h
    exact .inl ⟨by decide, (Host.Outcome.next.inj h).symm⟩
  | some k =>
    rw [hk] at h
    refine .inr ⟨rfl, ?_⟩
    rw [← Host.Outcome.next.inj h]
    rfl

/-- `Fx0A` writes one register and pc, or nothing (44 R232). -/
theorem execLdVxKWith_footprint {p : Params} {x : Reg} {s t : State} (h : execLdVxKWith p x s = .next t) :
    Footprint (.ldVxK x) s t := by
  unfold execLdVxKWith at h
  split at h
  all_goals
    rw [← Host.Outcome.next.inj h]
    rfl

/-- Advancing pc and writing a result and a flag changes registers and nothing else, in either order (41 R173). -/
theorem advance_setResultAndFlag_eq (pr : VfPriority) (s : State) (x : Reg) (r : Byte) (c : Bool) :
    s.advance.setResultAndFlag pr x r c =
      { s with v := (s.advance.setResultAndFlag pr x r c).v, pc := s.pc + 2#16 } := by
  cases pr <;> rfl

/-- Advancing pc and loading a block changes registers and `I` and nothing else (42 R195). -/
theorem advance_loadBlock_setI_eq (pol : MemPolicy) (s : State) (x : Reg) (a : Nat) (w : Word) :
    (s.advance.loadBlock pol x a).setI w = { s with v := (s.loadBlock pol x a).v, i := w, pc := s.pc + 2#16 } := by
  simp only [State.loadBlock, State.setI, State.advance, State.jump, State.npc]

/-- All an instruction can do, at any parameters: latch the code it raises and nothing else, or raise none and keep to
its footprint. -/
theorem execWith_cases {p : Params} {rnd : Byte} {i : Instr} {s t : State} (h : execWith p rnd i s = .next t) :
    LatchesOr (raisedCode p i s) s t (Footprint i s) := by
  cases i
  case ret => exact execRetWith_cases h
  case call => exact execCallWith_cases h
  case drw | ldBVx | ldMemVx => exact latchesOr_of_access (P := Footprint _ s) h rfl
  case ldVxMem => exact latchesOr_of_access (P := Footprint _ s) h (by rw [advance_loadBlock_setI_eq]; rfl)
  case skpVx => exact latchesOr_of_key (cond := id) h
  case sknpVx => exact latchesOr_of_key (cond := not) h
  case ldVxK => exact .inr ⟨rfl, execLdVxKWith_footprint h⟩
  all_goals
    refine .inr ⟨rfl, ?_⟩
    rw [← Host.Outcome.next.inj h]
  case seVxKk | sneVxKk | seVxVy | sneVxVy => exact (onlyPc_skipIf s _).1
  case addVxVy | subVxVy | shrVx | subnVxVy | shlVx => exact advance_setResultAndFlag_eq _ s _ _ _
  all_goals rfl

/-- The same at the spec's parameters and the free byte (00 R7). -/
theorem exec_cases {i : Instr} {s t : State} (h : exec i s = .next t) :
    LatchesOr (raisedCode Params.spec i s) s t (Footprint i s) :=
  execWith_cases ((execWith_spec i s).trans h)

/-! ### What follows for the latch and memory -/

/-- No footprint holds the latch (60 R252). -/
theorem fault_of_footprint {i : Instr} {s t : State} (h : Footprint i s t) : t.fault = s.fault := by
  cases i <;> exact (congrArg State.fault h :)

/-- No footprint but those of `Fx33` and `Fx55` holds memory (42 R193, R194). -/
theorem mem_of_footprint {i : Instr} {s t : State} (h : Footprint i s t)
    (hi : ∀ x, i ≠ .ldBVx x ∧ i ≠ .ldMemVx x) : t.mem = s.mem := by
  cases i
  case ldBVx x => exact absurd rfl (hi x).1
  case ldMemVx x => exact absurd rfl (hi x).2
  all_goals exact (congrArg State.mem h :)

/-- An instruction that raises a code latches it and changes nothing else (60 R252). -/
theorem exec_of_raises {i : Instr} {s : State} {c : BitVec 3} (h : raisedCode Params.spec i s = c) (hc : c ≠ 0#3) :
    exec i s = .next { s with fault := c } := by
  obtain ⟨t, ht, -⟩ := exec_latch i s
  obtain ⟨-, hlatch⟩ | ⟨h0, -⟩ := exec_cases ht
  · rw [ht, hlatch, h]
  · exact absurd (h.symm.trans h0) hc

/-- From an unfaulted state the latch holds what the instruction raises (60 R251). -/
theorem fault_of_exec {i : Instr} {s t : State} (hs : s.fault = 0#3) (h : exec i s = .next t) :
    t.fault = raisedCode Params.spec i s := by
  obtain ⟨-, hlatch⟩ | ⟨h0, hfoot⟩ := exec_cases h
  · rw [hlatch]
  · rw [fault_of_footprint hfoot, hs, h0]

/-! ### The conditions of the fault table at the spec's parameters -/

theorem spanExists_eq_false_iff {a n : Nat} : spanExists a n = false ↔ 1 ≤ n ∧ a + n - 1 > 0xFFF := by
  rw [← Bool.not_eq_true, spanExists_iff]
  omega

theorem pushEntry_spec_isSome {sp : Fin 17} : (pushEntry Params.spec sp).isSome = true ↔ sp.val ≠ 16 := by
  have := sp.isLt
  by_cases h : sp.val < 16
  · simp [pushEntry, h]; omega
  · simp [pushEntry, h]; omega

theorem popEntry_spec_isSome {sp : Fin 17} : (popEntry Params.spec sp).isSome = true ↔ sp.val ≠ 0 := by
  by_cases h : sp.val = 0
  · simp [popEntry, h]
  · simp [popEntry, h]

theorem keyAt_spec_isSome {s : State} {b : Byte} : (s.keyAt .fault b).isSome = true ↔ b.toNat ≤ 15 := by
  by_cases h : b.toNat < 16
  · simp [keyAt_of_lt h]; omega
  · simp [keyAt_of_ge (Nat.not_lt.mp h)]; omega

theorem ite_zero_eq_iff {P : Prop} [Decidable P] {a d : BitVec 3} (hd : d ≠ 0#3) :
    (if P then 0#3 else a) = d ↔ ¬ P ∧ a = d := by
  by_cases h : P
  · simp [h, hd.symm]
  · simp [h]

/-- Code 2 is the 17th nested `CALL`'s (60 R251). -/
theorem raisedCode_eq_two {i : Instr} {s : State} :
    raisedCode Params.spec i s = 2#3 ↔ ∃ nnn, i = .call nnn ∧ s.sp.val = 16 := by
  cases i <;> simp only [raisedCode, ite_zero_eq_iff (d := 2#3) (by decide)] <;> simp [pushEntry_spec_isSome]

/-- Code 3 is the unmatched `RET`'s (60 R251). -/
theorem raisedCode_eq_three {i : Instr} {s : State} :
    raisedCode Params.spec i s = 3#3 ↔ i = .ret ∧ s.sp.val = 0 := by
  cases i <;> simp only [raisedCode, ite_zero_eq_iff (d := 3#3) (by decide)] <;> simp [popEntry_spec_isSome]

/-- Code 4 is that of the four data accesses, where the last byte lies above 0xFFF (60 R251). -/
theorem raisedCode_eq_four {i : Instr} {s : State} :
    raisedCode Params.spec i s = 4#3 ↔
      (∃ x y n, i = .drw x y n ∧ 1 ≤ n.toNat ∧ s.i.toNat + n.toNat - 1 > 0xFFF) ∨
      (∃ x, i = .ldBVx x ∧ s.i.toNat + 2 > 0xFFF) ∨
      ∃ x, (i = .ldMemVx x ∨ i = .ldVxMem x) ∧ s.i.toNat + x.toNat > 0xFFF := by
  cases i <;> simp only [raisedCode, ite_zero_eq_iff (d := 4#3) (by decide)] <;>
    simp [spanExists_eq_false_iff, State.dataAddr, blockLen, and_assoc]

/-- Code 5 is that of the two skips on a key, where the index is above 15 (60 R251). -/
theorem raisedCode_eq_five {i : Instr} {s : State} :
    raisedCode Params.spec i s = 5#3 ↔ ∃ x, (i = .skpVx x ∨ i = .sknpVx x) ∧ (s.reg x).toNat > 15 := by
  cases i <;> simp only [raisedCode, ite_zero_eq_iff (d := 5#3) (by decide)] <;> simp [keyAt_spec_isSome]

/-- No instruction raises code 1, the fetch's (60 R251). -/
theorem raisedCode_ne_one (i : Instr) (s : State) : raisedCode Params.spec i s ≠ 1#3 := by
  rw [ne_eq]
  cases i <;> simp only [raisedCode, ite_zero_eq_iff (d := 1#3) (by decide)] <;> simp

end Sys2Proof.Frames
end

section
/-! SUPPORT. The cycle (40_cycle_and_control.md R130, 60_exceptions.md section 1): what it runs, when and what it
latches, and the invariant it keeps at every parameter (10_state.md sections 4 and 5). First what a cycle can do, said
once, then the obligations. -/

namespace Sys2Proof.Cycle
open Sys2Proof Sys2Proof.Machine Sys2Proof.Laws Sys2Proof.Control Sys2Proof.Frames

/-! ### What a cycle can do -/

/-- A faulted core's cycle changes nothing (60 R252). -/
theorem step_of_faulted {s : State} (h : s.fault ≠ 0#3) : step s = .next s := if_neg h

/-- A cycle on an instruction is its meaning (40 R130). -/
theorem step_of_fetched_instr {s : State} {i : Instr} (hs : s.fault = 0#3) (h : s.fetched = some (.instr i)) :
    step s = exec i s := by
  simp only [step, hs, if_true, h]

/-- At the spec's parameters and the free byte the cycle is `step` (00 R7). -/
theorem stepWith_spec (s : State) : stepWith Params.spec (Config.rnd s.draws) s = step s := by
  simp only [stepWith, step, execWith_spec]
  rfl

/-- All a cycle can do, at any parameters: nothing on a faulted core, and on another the fetch fault, the no-op of a
word of no row, or the meaning of the fetched instruction (40 R130, R131). -/
theorem stepWith_cases {p : Params} {rnd : Byte} {s t : State} (h : stepWith p rnd s = .next t) :
    (s.fault ≠ 0#3 ∧ t = s) ∨ s.fault = 0#3 ∧
      ((s.fetchedWith p = none ∧ t = { s with fault := 1#3 }) ∨
        (∃ op, s.fetchedWith p = some (.unrecognised op) ∧ t = s.advance) ∨
        ∃ i, s.fetchedWith p = some (.instr i) ∧ execWith p rnd i s = .next t) := by
  unfold stepWith at h
  split at h
  case isFalse hs => exact .inl ⟨hs, (Host.Outcome.next.inj h).symm⟩
  case isTrue hs =>
    refine .inr ⟨hs, ?_⟩
    split at h
    case h_1 hf => exact .inl ⟨hf, (Host.Outcome.next.inj h).symm⟩
    case h_2 i hf => exact .inr (.inr ⟨i, hf, h⟩)
    case h_3 op hf => exact .inr (.inl ⟨op, hf, (Host.Outcome.next.inj h).symm⟩)

/-- Every cycle answers a next state (60 R252). -/
theorem step_total (s : State) : ∃ t, step s = .next t := by
  unfold step
  split
  case isFalse => exact ⟨s, rfl⟩
  case isTrue =>
    split
    case h_1 => exact ⟨_, rfl⟩
    case h_2 i _ =>
      obtain ⟨t, ht, -⟩ := exec_latch i s
      exact ⟨t, ht⟩
    case h_3 => exact ⟨_, rfl⟩

/-- A cycle fetches nothing exactly where pc is above 0xFFE (20 R75). -/
theorem fetched_eq_none_iff {s : State} : s.fetched = none ↔ s.pc.toNat > 0xFFE := by
  rw [fetched_eq, Option.map_eq_none_iff]
  constructor
  · intro h
    refine Nat.not_le.mp fun hpc => ?_
    rw [fetch_of_le hpc] at h
    cases h
  · exact fetch_of_gt

/-- The code a cycle of an unfaulted core latches, 0 for none: the table of 60 R251. -/
def latchedCode (s : State) : BitVec 3 :=
  match s.fetched with
  | none => 1#3
  | some (.instr i) => raisedCode Params.spec i s
  | some (.unrecognised _) => 0#3

/-- A cycle of an unfaulted core latches what the table says (60 R251). -/
theorem fault_of_step {s t : State} (hs : s.fault = 0#3) (h : step s = .next t) : t.fault = latchedCode s := by
  cases hf : s.fetched with
  | none =>
    simp only [step, hs, if_true, hf] at h
    simp only [latchedCode, hf]
    exact congrArg State.fault (Host.Outcome.next.inj h).symm
  | some d =>
    cases d with
    | instr i =>
      rw [step_of_fetched_instr hs hf] at h
      simp only [latchedCode, hf]
      exact fault_of_exec hs h
    | unrecognised op =>
      rw [step_of_fetched_unrecognised hs hf] at h
      simp only [latchedCode, hf]
      rw [← Host.Outcome.next.inj h]
      exact hs

/-- The fetch fault's code is latched exactly where nothing is fetched (60 R251). -/
theorem latchedCode_eq_one_iff {s : State} : latchedCode s = 1#3 ↔ s.fetched = none := by
  unfold latchedCode
  split
  case h_1 hf => simp [hf]
  case h_2 i hf => simp [hf, raisedCode_ne_one]
  case h_3 op hf => simp [hf]

/-- Any other code is latched exactly where the fetched instruction raises it (60 R251). -/
theorem latchedCode_eq_iff {s : State} {c : BitVec 3} (h0 : c ≠ 0#3) (h1 : c ≠ 1#3) :
    latchedCode s = c ↔ ∃ i, s.fetched = some (.instr i) ∧ raisedCode Params.spec i s = c := by
  unfold latchedCode
  split
  case h_1 hf => simp [hf, h1.symm]
  case h_2 i hf => simp [hf]
  case h_3 op hf => simp [hf, h0.symm]

/-- The latch holds one of its six codes after every instruction (10 R41). -/
theorem fault_le_of_execWith {p : Params} {rnd : Byte} {i : Instr} {s t : State} (hs : s.fault.toNat ≤ 5)
    (h : execWith p rnd i s = .next t) : t.fault.toNat ≤ 5 := by
  obtain ⟨u, hu, hlatch⟩ := execWith_latch p rnd i s
  obtain rfl : u = t := Host.Outcome.next.inj (hu.symm.trans h)
  obtain hkept | ⟨f, hraised⟩ := hlatch
  · rwa [hkept]
  · rw [hraised]
    exact code_le f

/-! ### The invariant -/

/-- Every instruction keeps memory in its canonical form: two of them store bytes and the others leave it. -/
theorem wf_of_execWith {p : Params} {rnd : Byte} {i : Instr} {s t : State} (hs : Memory.wf s.mem)
    (h : execWith p rnd i s = .next t) : Memory.wf t.mem := by
  obtain ⟨-, rfl⟩ | ⟨-, hfoot⟩ := execWith_cases h
  · exact hs
  cases i
  case ldBVx =>
    obtain ⟨-, rfl⟩ | ⟨-, hwf⟩ := latchesOr_of_access (P := fun t => Memory.wf t.mem) h (wf_memSetBytesWith _ _ _ hs)
    · exact hs
    · exact hwf
  case ldMemVx =>
    obtain ⟨-, rfl⟩ | ⟨-, hwf⟩ := latchesOr_of_access (P := fun t => Memory.wf t.mem) h (wf_memSetBytesWith _ _ _ hs)
    · exact hs
    · exact hwf
  all_goals exact mem_of_footprint hfoot (fun _ => ⟨nofun, nofun⟩) ▸ hs

/-- Every cycle keeps memory in its canonical form, at every parameter and random byte. -/
theorem wf_of_stepWith {p : Params} {rnd : Byte} {s t : State} (hs : Memory.wf s.mem) (h : stepWith p rnd s = .next t) :
    Memory.wf t.mem := by
  obtain ⟨-, rfl⟩ | ⟨-, ⟨-, rfl⟩ | ⟨-, -, rfl⟩ | ⟨i, -, hexec⟩⟩ := stepWith_cases h
  case inr.inr.inr => exact wf_of_execWith hs hexec
  all_goals exact hs

/-- Every cycle leaves one of the six codes in the latch, at every parameter and random byte (10 R41). -/
theorem fault_le_of_stepWith {p : Params} {rnd : Byte} {s t : State} (hs : s.fault.toNat ≤ 5)
    (h : stepWith p rnd s = .next t) : t.fault.toNat ≤ 5 := by
  obtain ⟨-, rfl⟩ | ⟨-, ⟨-, rfl⟩ | ⟨-, -, rfl⟩ | ⟨i, -, hexec⟩⟩ := stepWith_cases h
  case inr.inl => exact code_le (.fetchOutOfRange s.pc)
  case inr.inr.inr => exact fault_le_of_execWith hs hexec
  all_goals exact hs

/-- Every cycle keeps the invariant, at every parameter and random byte. -/
theorem inv_of_stepWith {p : Params} {rnd : Byte} {s t : State} (hs : s.Inv) (h : stepWith p rnd s = .next t) :
    t.Inv :=
  ⟨wf_of_stepWith hs.1 h, fault_le_of_stepWith hs.2 h⟩

/-- Every cycle of the machine keeps the invariant. -/
theorem inv_of_step {s t : State} (hs : s.Inv) (h : step s = .next t) : t.Inv :=
  inv_of_stepWith hs ((stepWith_spec s).trans h)

/-! ### The obligations -/

/-- Settles O11: a cycle answers, and its latch holds the code of the table, the fetch's or the one the fetched
instruction raises under its own condition. -/
theorem faultsExactlyAsListed : Obligations.FaultsExactlyAsListed := by
  intro s hs
  obtain ⟨t, ht⟩ := step_total s
  have hbound : t.fault.toNat ≤ 5 :=
    fault_le_of_stepWith (by rw [hs]; decide) ((stepWith_spec s).trans ht)
  have hcode := fault_of_step hs ht
  refine ⟨t, ht, ?fetch, ?overflow, ?underflow, ?data, ?key, hbound⟩
  case fetch => rw [hcode, latchedCode_eq_one_iff, fetched_eq_none_iff]
  case overflow =>
    simp only [hcode, latchedCode_eq_iff (c := 2#3) (by decide) (by decide), raisedCode_eq_two]
    constructor
    · rintro ⟨_, hf, nnn, rfl, hsp⟩
      exact ⟨nnn, hf, hsp⟩
    · rintro ⟨nnn, hf, hsp⟩
      exact ⟨_, hf, nnn, rfl, hsp⟩
  case underflow =>
    simp only [hcode, latchedCode_eq_iff (c := 3#3) (by decide) (by decide), raisedCode_eq_three]
    constructor
    · rintro ⟨_, hf, rfl, hsp⟩
      exact ⟨hf, hsp⟩
    · rintro ⟨hf, hsp⟩
      exact ⟨_, hf, rfl, hsp⟩
  case data =>
    simp only [hcode, latchedCode_eq_iff (c := 4#3) (by decide) (by decide), raisedCode_eq_four]
    constructor
    · rintro ⟨_, hf, ⟨x, y, n, rfl, hn, hi⟩ | ⟨x, rfl, hi⟩ | ⟨x, rfl | rfl, hi⟩⟩
      · exact .inl ⟨x, y, n, hf, hn, hi⟩
      · exact .inr (.inl ⟨x, hf, hi⟩)
      · exact .inr (.inr ⟨x, .inl hf, hi⟩)
      · exact .inr (.inr ⟨x, .inr hf, hi⟩)
    · rintro (⟨x, y, n, hf, hn, hi⟩ | ⟨x, hf, hi⟩ | ⟨x, hf | hf, hi⟩)
      · exact ⟨_, hf, .inl ⟨x, y, n, rfl, hn, hi⟩⟩
      · exact ⟨_, hf, .inr (.inl ⟨x, rfl, hi⟩)⟩
      · exact ⟨_, hf, .inr (.inr ⟨x, .inl rfl, hi⟩)⟩
      · exact ⟨_, hf, .inr (.inr ⟨x, .inr rfl, hi⟩)⟩
  case key =>
    simp only [hcode, latchedCode_eq_iff (c := 5#3) (by decide) (by decide), raisedCode_eq_five]
    constructor
    · rintro ⟨_, hf, x, rfl | rfl, hx⟩
      · exact ⟨x, .inl hf, hx⟩
      · exact ⟨x, .inr hf, hx⟩
    · rintro ⟨x, hf | hf, hx⟩
      · exact ⟨_, hf, x, .inl rfl, hx⟩
      · exact ⟨_, hf, x, .inr rfl, hx⟩

/-- Settles O58: reset stores the font into canonical memory, and a cycle at any parameters keeps both parts. -/
theorem everyParameterKeepsTheInvariant : Obligations.EveryParameterKeepsTheInvariant :=
  fun _ => ⟨⟨wf_memSetBytes _ _ wf_reset, Nat.zero_le 5⟩, fun _ _ _ => inv_of_stepWith⟩

/-- Settles O14: the machine is the parametric one at the spec's parameters. -/
theorem everyStepKeepsTheInvariant : Obligations.EveryStepKeepsTheInvariant :=
  fun _ _ => inv_of_step

/-- Settles O13: no cell of memory is listed and the latch is 0. -/
theorem resetMeetsTheInvariant : Obligations.ResetMeetsTheInvariant := ⟨wf_reset, Nat.zero_le 5⟩

/-- Settles O15: a cycle keeps the invariant, `load` stores bytes, reset meets it, and the others touch neither memory
nor latch. -/
theorem everyTransactionKeepsTheInvariant : Obligations.EveryTransactionKeepsTheInvariant := by
  intro a sys sys' r hinv h
  cases a
  case load bytes =>
    simp only [transact, transactBy, transactLoad, State.load] at h
    split at h
    case h_1 =>
      split at h
      case h_1 s hs =>
        split at hs
        case isTrue => cases hs
        case isFalse =>
          cases hs
          cases h
          exact ⟨wf_memSetBytes _ _ hinv.1, hinv.2⟩
      case h_2 =>
        cases h
        exact hinv
    all_goals cases h
  case cycle =>
    simp only [transact, transactBy, transactCycle] at h
    split at h
    case h_1 s hs =>
      cases h
      exact inv_of_step hinv hs
    all_goals cases h
  case reset =>
    cases h
    exact resetMeetsTheInvariant
  all_goals
    cases h
    exact hinv

/-- Settles O6: the two bytes are what the cycle fetches, and they decode to the instruction. -/
theorem stepRunsTheDecodedInstruction : Obligations.StepRunsTheDecodedInstruction := by
  intro s hi lo i hs hhi hlo hdec
  have hi' : decode (opcodeOfBytes hi lo) = .instr i := (BytesDecoded.word.inj hdec).1
  exact step_of_fetched_instr hs ((fetched_of_readByte hhi hlo).trans (congrArg some hi'))

/-- Settles O8: nothing is fetched there. -/
theorem fetchAboveMemoryFaults : Obligations.FetchAboveMemoryFaults := fun _ => step_of_pc_above

/-- Settles O9: the cycle looks at the latch first. -/
theorem faultedCoreIsStuck : Obligations.FaultedCoreIsStuck := fun _ => step_of_faulted

/-- Settles O10: a faulted core is stuck, and an unfaulted one ends faulted only by its fetch or by an instruction,
which latch and do nothing else. -/
theorem faultChangesNothingElse : Obligations.FaultChangesNothingElse := by
  intro s t h ht
  obtain ⟨-, rfl⟩ | ⟨hs, ⟨-, rfl⟩ | ⟨-, -, rfl⟩ | ⟨i, -, hexec⟩⟩ := stepWith_cases ((stepWith_spec s).trans h)
  · rfl
  · rfl
  · exact absurd hs ht
  · obtain ⟨-, hlatch⟩ | ⟨-, hfoot⟩ := execWith_cases hexec
    · rw [hlatch]
    · exact absurd ((fault_of_footprint hfoot).trans hs) ht

end Sys2Proof.Cycle
end

section
/-! SUPPORT. What each instruction writes and reads (10_state.md R47, R48): a register changes only under an instruction
that names it, every other element only under the instructions of its footprint, and no register depends on pc, the
stack, the sound timer, the redraw signal or the latch. -/

namespace Sys2Proof.Writes
open Sys2Proof Sys2Proof.Machine Sys2Proof.Laws Sys2Proof.Control Sys2Proof.Frames

/-! ### The registers an instruction writes -/

/-- The instruction may write the register: as its destination, as one of the block `Fx65` loads, or as the flag
(10 R30, R31). -/
def WritesReg (i : Instr) (r : Reg) : Prop :=
  match i with
  | .ldVxKk x _ | .addVxKk x _ | .ldVxVy x _ | .orVxVy x _ | .andVxVy x _ | .xorVxVy x _ | .rndVxKk x _ | .ldVxDt x
  | .ldVxK x => r = x
  | .addVxVy x _ | .subVxVy x _ | .shrVx x _ | .subnVxVy x _ | .shlVx x _ => r = x ∨ r = VF
  | .addIVx _ | .drw _ _ _ => r = VF
  | .ldVxMem x => r.toNat ≤ x.toNat
  | .cls | .ret | .jp _ | .call _ | .seVxKk _ _ | .sneVxKk _ _ | .seVxVy _ _ | .sneVxVy _ _ | .ldI _ | .jpV0 _
  | .skpVx _ | .sknpVx _ | .ldDtVx _ | .ldStVx _ | .ldFVx _ | .ldBVx _ | .ldMemVx _ => False

/-- Equal register vectors read alike. -/
theorem reg_congr {s t : State} (h : t.v = s.v) (r : Reg) : t.reg r = s.reg r := by
  simp only [State.reg, h]

/-- The flag's write leaves the other registers (10 R31). -/
theorem reg_setFlag_of_ne {s : State} {r : Reg} {c : Bool} (h : r ≠ VF) : (s.setFlag c).reg r = s.reg r := by
  rw [reg_setFlag, if_neg h]

/-- Loading a block leaves the registers above it (42 R195). -/
theorem reg_loadBlock_of_gt {pol : MemPolicy} {s : State} {x r : Reg} {a : Nat} (h : x.toNat < r.toNat) :
    (s.loadBlock pol x a).reg r = s.reg r := by
  rw [reg_loadBlock, if_neg (Nat.not_le.mpr h)]

/-- An instruction keeps every register it may not write. -/
theorem reg_of_exec {i : Instr} {s t : State} {r : Reg} (hr : ¬ WritesReg i r) (h : exec i s = .next t) :
    t.reg r = s.reg r := by
  obtain ⟨-, rfl⟩ | ⟨-, hfoot⟩ := exec_cases h
  · rfl
  cases i
  case ldVxKk | addVxKk | ldVxVy | orVxVy | andVxVy | xorVxVy | rndVxKk | ldVxDt =>
    rw [← Host.Outcome.next.inj h]
    exact reg_setReg_of_ne _ _ hr
  case addVxVy | subVxVy | shrVx | subnVxVy | shlVx =>
    obtain ⟨hx, hvf⟩ := not_or.mp hr
    rw [← Host.Outcome.next.inj h, spec_vfPriority, reg_setResultAndFlag, if_neg hvf, if_neg hx, advance_reg]
  case addIVx =>
    rw [← Host.Outcome.next.inj h]
    exact reg_setFlag_of_ne hr
  case drw =>
    obtain ⟨-, rfl⟩ | ⟨-, hreg⟩ :=
      latchesOr_of_access (P := fun t => t.reg r = s.reg r) h (reg_setFlag_of_ne hr)
    · rfl
    · exact hreg
  case ldVxMem =>
    obtain ⟨-, rfl⟩ | ⟨-, hreg⟩ :=
      latchesOr_of_access (P := fun t => t.reg r = s.reg r) h
        (by rw [setI_reg, reg_loadBlock_of_gt (Nat.not_le.mp hr), advance_reg])
    · rfl
    · exact hreg
  case ldVxK =>
    simp only [exec, execLdVxK, execLdVxKWith] at h
    split at h
    all_goals rw [← Host.Outcome.next.inj h]
    exact reg_setReg_of_ne _ _ hr
  all_goals exact reg_congr (congrArg State.v hfoot :) r

/-- An instruction that may write no register keeps them all. -/
theorem v_of_exec {i : Instr} {s t : State} (hi : ∀ r, ¬ WritesReg i r) (h : exec i s = .next t) : t.v = s.v :=
  v_ext fun r => reg_of_exec (hi r) h

/-! ### What an instruction reads -/

/-- Two data accesses under one condition answer related states, where their effects and their faults are related. -/
theorem access_congr {R : State → State → Prop} {b : Bool} {i0 : Word} {s s' t u u' : State}
    (h : (if b = true then .next u else raise (.dataAddressOutOfRange i0) s : Result) = .next t) (hu : R u u')
    (hs : R { s with fault := 4#3 } { s' with fault := 4#3 }) :
    ∃ t', (if b = true then .next u' else raise (.dataAddressOutOfRange i0) s' : Result) = .next t' ∧ R t t' := by
  cases b
  · exact ⟨_, rfl, Host.Outcome.next.inj h ▸ hs⟩
  · exact ⟨_, rfl, Host.Outcome.next.inj h ▸ hu⟩


/-- Two key waits that see the same hit answer related states, where the waiting and the going-on states are related. -/
theorem wait_congr {R : State → State → Prop} {hit : Option (Fin 16)} {x : Reg} {s s' t : State}
    (h : (match hit with
      | none => .next s
      | some k => .next (s.advance.setReg x (BitVec.ofNat 8 k.val)) : Result) = .next t) (hs : R s s')
    (hk : ∀ b, R (s.advance.setReg x b) (s'.advance.setReg x b)) :
    ∃ t', (match hit with
      | none => .next s'
      | some k => .next (s'.advance.setReg x (BitVec.ofNat 8 k.val)) : Result) = .next t' ∧ R t t' := by
  cases hit
  · exact ⟨_, rfl, Host.Outcome.next.inj h ▸ hs⟩
  · exact ⟨_, rfl, Host.Outcome.next.inj h ▸ hk _⟩

/-- Two skips on the same key answer related states, where the skips and the faults are related. -/
theorem key_congr {R : State → State → Prop} {key : Option Bool} {cond : Bool → Bool} {pc0 : Word} {s s' t : State}
    (h : (match key with
      | none => raise (.keyIndexOutOfRange pc0) s
      | some down => .next (s.skipIf (cond down)) : Result) = .next t) (hskip : ∀ c, R (s.skipIf c) (s'.skipIf c))
    (hs : R { s with fault := 5#3 } { s' with fault := 5#3 }) :
    ∃ t', (match key with
      | none => raise (.keyIndexOutOfRange pc0) s'
      | some down => .next (s'.skipIf (cond down)) : Result) = .next t' ∧ R t t' := by
  cases key
  · exact ⟨_, rfl, Host.Outcome.next.inj h ▸ hs⟩
  · exact ⟨_, rfl, Host.Outcome.next.inj h ▸ hskip _⟩

/-- The two states differ in the sound timer alone. -/
def SameButSt (t t' : State) : Prop := t' = { t with st := t'.st }

/-- A skip carries a difference in the sound timer along. -/
theorem sameButSt_skipIf (s : State) (b : Byte) (c : Bool) : SameButSt (s.skipIf c) ({ s with st := b }.skipIf c) := by
  cases c <;> rfl

/-! ### The instructions named for each element -/

/-- The instructions that may write a register, by name. -/
theorem named_of_writesReg {i : Instr} {r : Reg} (h : WritesReg i r) :
    (∃ kk, i = .ldVxKk r kk ∨ i = .addVxKk r kk ∨ i = .rndVxKk r kk) ∨
      (∃ y, i = .ldVxVy r y ∨ i = .orVxVy r y ∨ i = .andVxVy r y ∨ i = .xorVxVy r y ∨ i = .addVxVy r y ∨
        i = .subVxVy r y ∨ i = .shrVx r y ∨ i = .subnVxVy r y ∨ i = .shlVx r y) ∨
      i = .ldVxDt r ∨ i = .ldVxK r ∨ (∃ x, i = .ldVxMem x ∧ r.toNat ≤ x.toNat) ∨
      (r = VF ∧ ((∃ x, i = .addIVx x) ∨ (∃ x y n, i = .drw x y n) ∨
        ∃ x y, i = .addVxVy x y ∨ i = .subVxVy x y ∨ i = .shrVx x y ∨ i = .subnVxVy x y ∨ i = .shlVx x y)) := by
  cases i
  case ldVxKk x _ | addVxKk x _ | rndVxKk x _ | ldVxVy x _ | orVxVy x _ | andVxVy x _ | xorVxVy x _ | ldVxDt x
      | ldVxK x =>
    obtain rfl : r = x := h
    simp
  case addVxVy x _ | subVxVy x _ | shrVx x _ | subnVxVy x _ | shlVx x _ =>
    obtain rfl | rfl : r = x ∨ r = VF := h
    · simp
    · simp
  case addIVx | drw =>
    obtain rfl : r = VF := h
    simp
  case ldVxMem x => exact .inr (.inr (.inr (.inr (.inl ⟨x, rfl, h⟩))))
  all_goals exact absurd h id

/-- The instructions whose footprint takes pc elsewhere than 2 on, by name (40 R142). -/
theorem named_of_pc {i : Instr} {s t : State} (h : exec i s = .next t) (hfoot : Footprint i s t)
    (hne : t.pc ≠ s.pc + 2#16) :
    (t.pc = s.pc ∧ (t.fault ≠ 0#3 ∨ ∃ x, i = .ldVxK x)) ∨ i = .ret ∨
      (∃ nnn, i = .jp nnn ∨ i = .call nnn ∨ i = .jpV0 nnn) ∨
      (∃ x kk, i = .seVxKk x kk ∨ i = .sneVxKk x kk) ∨ (∃ x y, i = .seVxVy x y ∨ i = .sneVxVy x y) ∨
      ∃ x, i = .skpVx x ∨ i = .sknpVx x := by
  cases i
  case ret | jp | call | jpV0 | seVxKk | sneVxKk | seVxVy | sneVxVy | skpVx | sknpVx => simp
  case ldVxK x =>
    have hpc := execLdVxK_pc h
    split at hpc
    · exact .inl ⟨hpc.trans (BitVec.add_zero _), .inr ⟨x, rfl⟩⟩
    · exact absurd hpc hne
  all_goals exact absurd (congrArg State.pc hfoot :) hne

/-- The instructions that raise a code, by name and code (60 R251). -/
theorem named_of_raises {i : Instr} {s : State} (h : raisedCode Params.spec i s ≠ 0#3) :
    (raisedCode Params.spec i s = 2#3 ∧ ∃ nnn, i = .call nnn) ∨ (raisedCode Params.spec i s = 3#3 ∧ i = .ret) ∨
      (raisedCode Params.spec i s = 4#3 ∧
        ((∃ x y n, i = .drw x y n) ∨ ∃ x, i = .ldBVx x ∨ i = .ldMemVx x ∨ i = .ldVxMem x)) ∨
      (raisedCode Params.spec i s = 5#3 ∧ ∃ x, i = .skpVx x ∨ i = .sknpVx x) := by
  have raised : ∀ {b : Bool} {c : BitVec 3}, (if b then 0#3 else c) ≠ 0#3 → (if b then 0#3 else c) = c := by
    intro b c hb
    cases b
    · rfl
    · exact absurd rfl hb
  cases i
  case call => exact .inl ⟨raised h, _, rfl⟩
  case ret => exact .inr (.inl ⟨raised h, rfl⟩)
  case drw => exact .inr (.inr (.inl ⟨raised h, .inl ⟨_, _, _, rfl⟩⟩))
  case ldBVx => exact .inr (.inr (.inl ⟨raised h, .inr ⟨_, .inl rfl⟩⟩))
  case ldMemVx => exact .inr (.inr (.inl ⟨raised h, .inr ⟨_, .inr (.inl rfl)⟩⟩))
  case ldVxMem => exact .inr (.inr (.inl ⟨raised h, .inr ⟨_, .inr (.inr rfl)⟩⟩))
  case skpVx => exact .inr (.inr (.inr ⟨raised h, _, .inl rfl⟩))
  case sknpVx => exact .inr (.inr (.inr ⟨raised h, _, .inr rfl⟩))
  all_goals exact absurd rfl h

section
variable {i : Instr} {s t : State}

/-- The instructions whose footprint holds `I`, by name (10 R32). -/
theorem named_of_i (h : Footprint i s t) (hne : t.i ≠ s.i) :
    (∃ nnn, i = .ldI nnn) ∨ ∃ x, i = .addIVx x ∨ i = .ldFVx x ∨ i = .ldMemVx x ∨ i = .ldVxMem x := by
  cases i
  case ldI | addIVx | ldFVx | ldMemVx | ldVxMem => simp
  all_goals exact absurd (congrArg State.i h :) hne

/-- The instructions whose footprint holds `SP`, by name (10 R34). -/
theorem named_of_sp (h : Footprint i s t) (hne : t.sp ≠ s.sp) : i = .ret ∨ ∃ nnn, i = .call nnn := by
  cases i
  case ret | call => simp
  all_goals exact absurd (congrArg State.sp h :) hne

/-- The instruction whose footprint holds the stack entries, by name (10 R35). -/
theorem named_of_stk (h : Footprint i s t) (hne : t.stk ≠ s.stk) : ∃ nnn, i = .call nnn := by
  cases i
  case call nnn => exact ⟨nnn, rfl⟩
  all_goals exact absurd (congrArg State.stk h :) hne

/-- The instruction whose footprint holds the delay timer, by name (10 R36). -/
theorem named_of_dt (h : Footprint i s t) (hne : t.dt ≠ s.dt) : ∃ x, i = .ldDtVx x := by
  cases i
  case ldDtVx x => exact ⟨x, rfl⟩
  all_goals exact absurd (congrArg State.dt h :) hne

/-- The instruction whose footprint holds the sound timer, by name (10 R37). -/
theorem named_of_st (h : Footprint i s t) (hne : t.st ≠ s.st) : ∃ x, i = .ldStVx x := by
  cases i
  case ldStVx x => exact ⟨x, rfl⟩
  all_goals exact absurd (congrArg State.st h :) hne

/-- The instructions whose footprint holds the framebuffer, by name (10 R38). -/
theorem named_of_fb (h : Footprint i s t) (hne : t.fb ≠ s.fb) : i = .cls ∨ ∃ x y n, i = .drw x y n := by
  cases i
  case cls | drw => simp
  all_goals exact absurd (congrArg State.fb h :) hne

/-- The instructions whose footprint raises the redraw signal, by name (10 R40). -/
theorem named_of_rd (h : Footprint i s t) (hne : t.rd ≠ s.rd) :
    t.rd = true ∧ (i = .cls ∨ ∃ x y n, i = .drw x y n) := by
  cases i
  case cls => exact ⟨(congrArg State.rd h :), .inl rfl⟩
  case drw => exact ⟨(congrArg State.rd h :), .inr ⟨_, _, _, rfl⟩⟩
  all_goals exact absurd (congrArg State.rd h :) hne

/-- The instructions whose footprint holds memory, by name (10 R42). -/
theorem named_of_mem (h : Footprint i s t) (hne : ∃ a, t.readByte a ≠ s.readByte a) :
    ∃ x, i = .ldBVx x ∨ i = .ldMemVx x := by
  refine Classical.byContradiction fun hnone => ?_
  simp only [not_exists, not_or] at hnone
  obtain ⟨a, ha⟩ := hne
  exact ha (by rw [State.readByte, State.readByte, mem_of_footprint h hnone])

/-- The instruction whose footprint holds the model's draw counter, by name. -/
theorem named_of_draws (h : Footprint i s t) (hne : t.draws ≠ s.draws) : ∃ x kk, i = .rndVxKk x kk := by
  cases i
  case rndVxKk x kk => exact ⟨x, kk, rfl⟩
  all_goals exact absurd (congrArg State.draws h :) hne

/-- No footprint holds the keypad (10 R39). -/
theorem key_of_footprint (h : Footprint i s t) : t.key = s.key := by
  cases i <;> exact (congrArg State.key h :)

end

/-! ### The obligations -/

/-- Settles O16: a register is kept by an instruction that may not write it; a fault changes the latch alone, to the
code its instruction raises; and without one every element outside the footprint is kept. -/
theorem onlyTheNamedInstructionsWriteEachElement : Obligations.OnlyTheNamedInstructionsWriteEachElement := by
  intro i s t h
  refine ⟨fun r hr => named_of_writesReg (Classical.byContradiction fun hw => hr (reg_of_exec hw h)), ?_⟩
  obtain ⟨hraised, rfl⟩ | ⟨-, hfoot⟩ := exec_cases h
  · exact ⟨fun _ => .inl ⟨rfl, .inl hraised⟩, fun _ => named_of_raises hraised, rfl, absurd rfl, absurd rfl, absurd rfl,
      absurd rfl, absurd rfl, absurd rfl, absurd rfl, fun ⟨_, ha⟩ => absurd rfl ha, absurd rfl⟩
  · exact ⟨named_of_pc h hfoot, fun hne => absurd (fault_of_footprint hfoot) hne, key_of_footprint hfoot,
      named_of_i hfoot, named_of_sp hfoot, named_of_stk hfoot, named_of_dt hfoot, named_of_st hfoot, named_of_fb hfoot,
      named_of_rd hfoot, named_of_mem hfoot, named_of_draws hfoot⟩

/-- Settles O17: an instruction that may write a register reads none of these elements, the condition of its access
included, and any other keeps all registers in both runs. -/
theorem hiddenElementsNeverReachARegister : Obligations.HiddenElementsNeverReachARegister := by
  intro i s t pc sp stk st rd fault h
  have kept : (∀ r, ¬ WritesReg i r) →
      ∃ t', exec i { s with pc := pc, sp := sp, stk := stk, st := st, rd := rd, fault := fault } = .next t' ∧
        t'.v = t.v := by
    intro hi
    obtain ⟨t', ht', -⟩ :=
      exec_latch i { s with pc := pc, sp := sp, stk := stk, st := st, rd := rd, fault := fault }
    exact ⟨t', ht', (v_of_exec hi ht').trans (v_of_exec hi h).symm⟩
  cases i
  case drw | ldVxMem => exact access_congr (R := fun t t' => t'.v = t.v) h rfl rfl
  case ldVxK => exact wait_congr (R := fun t t' => t'.v = t.v) h rfl fun _ => rfl
  case cls | ret | jp | call | seVxKk | sneVxKk | seVxVy | sneVxVy | ldI | jpV0 | skpVx | sknpVx | ldDtVx | ldStVx
      | ldFVx | ldBVx | ldMemVx => exact kept fun _ => id
  all_goals
    rw [← Host.Outcome.next.inj h]
    exact ⟨_, rfl, rfl⟩

/-- No instruction reads the sound timer: two states that differ in it alone end in two such states (44 R235). -/
theorem exec_sameButSt {i : Instr} {s t : State} (b : Byte) (h : exec i s = .next t) :
    ∃ t', exec i { s with st := b } = .next t' ∧ SameButSt t t' := by
  cases i
  case ret =>
    simp only [exec, execRet, execRetWith, State.pop] at h ⊢
    cases hk : popEntry Params.spec s.sp
    all_goals
      rw [hk] at h
      rw [← Host.Outcome.next.inj h]
      exact ⟨_, rfl, rfl⟩
  case call =>
    simp only [exec, execCall, execCallWith, State.push] at h ⊢
    cases hk : pushEntry Params.spec s.sp
    all_goals
      rw [hk] at h
      rw [← Host.Outcome.next.inj h]
      exact ⟨_, rfl, rfl⟩
  case drw | ldBVx | ldMemVx => exact access_congr (R := SameButSt) h rfl rfl
  case ldVxMem =>
    refine access_congr (R := SameButSt) h ?_ rfl
    rw [advance_loadBlock_setI_eq, advance_loadBlock_setI_eq]
    rfl
  case ldVxK => exact wait_congr (R := SameButSt) h rfl fun _ => rfl
  case skpVx => exact key_congr (R := SameButSt) (cond := id) h (sameButSt_skipIf s b) rfl
  case sknpVx => exact key_congr (R := SameButSt) (cond := not) h (sameButSt_skipIf s b) rfl
  all_goals rw [← Host.Outcome.next.inj h]
  case seVxKk | sneVxKk | seVxVy | sneVxVy => exact ⟨_, rfl, sameButSt_skipIf s b _⟩
  all_goals exact ⟨_, rfl, rfl⟩

/-- Settles O54: `Fx18` writes the timer alone, whose being nonzero the host sees; and no instruction reads it. -/
theorem setsTheSoundTimerThatNothingReads : Obligations.SetsTheSoundTimerThatNothingReads := by
  refine ⟨fun s x => ⟨Encoding.decode_encode (.ldStVx x), { s.advance with st := s.reg x }, rfl, rfl, advance_pc s, rfl,
    fun _ => rfl, ?_⟩, fun i s t b => exec_sameButSt b⟩
  simp [State.observe]

end Sys2Proof.Writes
end

section
/-! SUPPORT. The open parameters (00_scope.md R7): at the spec's values the parametric machine is the machine; the
font is what reset stores; the three fault policies matter only where the spec faults (60_exceptions.md section 1);
the choices that pick a value matter only where 93_implementation_defined.md U4, U6, U7 and U8 say. -/

namespace Sys2Proof.Parameters
open Sys2Proof Sys2Proof.Machine Sys2Proof.Laws Sys2Proof.Control Sys2Proof.Encoding Sys2Proof.Frames Sys2Proof.Cycle

/-! ### The reset state -/

/-- A byte at reset at any parameters: the font's, or what the reset state has (10 R50). -/
theorem readByte_resetWith (p : Params) (c : Nat) :
    (State.resetWith p).readByte c =
      if hc : 0x050 ≤ c ∧ c - 0x050 < p.font.length then some (p.font[c - 0x050]'hc.2)
      else State.reset.readByte c :=
  readByte_storeBytes State.reset Config.fontBase c p.font (by rw [length_font]; decide)

/-- Storing the font that unlisted memory reads as lists no cell (10 R50, R51). -/
theorem resetWith_spec : State.resetWith Params.spec = State.reset := by
  have hmem : memSetBytes [] Config.fontBase font = [] := by
    refine memory_ext (wf_memSetBytes _ _ wf_reset) wf_reset fun a => ?_
    rw [memGet_memSetBytes _ _ _ _ (by decide)]
    split
    case isTrue ha =>
      have hlt : a < Config.fontBase + Config.fontSize := by
        have : font.length = 80 := rfl
        simp only [Config.fontSize]
        omega
      rw [memGet, unlistedByte, if_pos ⟨ha.1, hlt⟩, List.getD_eq_getElem?_getD, List.getElem?_eq_getElem ha.2,
        Option.getD_some]
    case isFalse => rfl
  rw [State.resetWith, spec_font, State.storeBytes, State.storeBytesWith]
  exact congrArg (fun m => { State.reset with mem := m }) hmem

/-- A transaction of the machine at given parameters is one of the machine, where the cycles and the reset states
agree. -/
theorem transactBy_congr {cyc cyc' : State → Result} {r : State} {sys : System} (t : Transaction)
    (h : cyc sys.core = cyc' sys.core) : transactBy cyc r t sys = transactBy cyc' r t sys := by
  cases t
  case cycle => simp only [transactBy, transactCycle, h]
  all_goals rfl

/-! ### The fault policies -/

/-- The parameters with the three fault policies at the spec's. -/
abbrev faulting (p : Params) : Params := { p with stackPolicy := .fault, memPolicy := .fault, keyPolicy := .fault }

/-- A push that does not fault writes the same entry under every policy (D3). -/
theorem pushEntry_of_faulting {p : Params} {sp : Fin 17} {k : Fin 16} (h : pushEntry (faulting p) sp = some k) :
    pushEntry p sp = some k := by
  unfold pushEntry at h ⊢
  split
  case isTrue hsp => simpa [hsp] using h
  case isFalse hsp => simp [hsp] at h

/-- A pop that does not fault reads the same entry under every policy (D4). -/
theorem popEntry_of_faulting {p : Params} {sp : Fin 17} {k : Fin 16} (h : popEntry (faulting p) sp = some k) :
    popEntry p sp = some k := by
  unfold popEntry at h ⊢
  split
  case isTrue hsp => simp [hsp] at h
  case isFalse hsp => simpa [hsp] using h

/-- A key that is read without a fault is the same under every policy (D8). -/
theorem keyAt_of_faulting {pol : KeyPolicy} {s : State} {b : Byte} {down : Bool} (h : s.keyAt .fault b = some down) :
    s.keyAt pol b = some down := by
  have hb : b.toNat < 16 := by
    refine Nat.not_le.mp fun hb => ?_
    rw [keyAt_of_ge hb] at h
    cases h
  rwa [keyAt_of_lt hb] at h ⊢

/-- A fetch that does not fault reads the same word under every policy (D6). -/
theorem fetchWith_of_faulting {pol : MemPolicy} {s : State} {op : Opcode} (h : s.fetchWith .fault = some op) :
    s.fetchWith pol = some op := by
  unfold State.fetchWith at h ⊢
  by_cases hspan : spanAllowed .fault s.pc.toNat 2 = true
  case neg =>
    rw [if_neg hspan] at h
    cases h
  case pos =>
    rw [if_pos hspan] at h
    have h0 := cellAt_of_exists pol hspan (k := 0) (by decide)
    have h1 := cellAt_of_exists pol hspan (k := 1) (by decide)
    rw [Nat.add_zero] at h0
    rwa [if_pos (spanAllowed_of_exists pol hspan), h0, h1]

/-- What a cycle runs without a fetch fault it runs under every policy (D6). -/
theorem fetchedWith_of_faulting {p : Params} {s : State} {d : Decoded} (h : s.fetchedWith (faulting p) = some d) :
    s.fetchedWith p = some d := by
  obtain ⟨op, hop, hd⟩ := Option.map_eq_some_iff.mp h
  exact Option.map_eq_some_iff.mpr ⟨op, fetchWith_of_faulting hop, hd⟩

/-- Bytes stored where they exist are stored the same under every policy (D7). -/
theorem storeBytesWith_of_exists {pol : MemPolicy} {s : State} {a n : Nat} {bs : List Byte} (hn : bs.length = n)
    (h : spanExists a n = true) : s.storeBytesWith pol a bs = s.storeBytesWith .fault a bs := by
  have hmem : memSetBytesWith pol s.mem a bs = memSetBytesWith .fault s.mem a bs := by
    obtain h0 | hin := spanExists_iff.mp h
    · obtain rfl := List.length_eq_zero_iff.mp (hn.trans h0)
      rfl
    · exact memSetBytesWith_of_inside pol _ (by rw [hn]; exact hin)
  rw [State.storeBytesWith, State.storeBytesWith, hmem]

/-- A block loaded from where it exists is the same under every policy (D7). -/
theorem loadBlock_of_exists {pol : MemPolicy} {s : State} {x : Reg} {a : Nat}
    (h : spanExists a (blockLen x) = true) : s.loadBlock pol x a = s.loadBlock .fault x a := by
  have hv : (s.loadBlock pol x a).v = (s.loadBlock .fault x a).v := v_ext fun r => by
    rw [reg_loadBlock, reg_loadBlock]
    by_cases hr : r.toNat ≤ x.toNat
    · rw [cellAt_of_exists pol h (Nat.lt_succ_of_le hr), cellAt_fault]
    · rw [if_neg hr, if_neg hr]
  exact congrArg (fun v => { s with v := v }) hv

/-- A data access that raises nothing exists (20 R75). -/
theorem exists_of_raises_nothing {b : Bool} (h : (if b then 0#3 else 4#3) = 0#3) : b = true := by
  cases b
  · cases h
  · rfl

/-- An instruction that raises nothing where the policies fault does the same under every policy. -/
theorem execWith_of_faulting {p : Params} {rnd : Byte} {i : Instr} {s t : State}
    (h0 : raisedCode (faulting p) i s = 0#3) (h : execWith (faulting p) rnd i s = .next t) :
    execWith p rnd i s = .next t := by
  cases i
  case ret =>
    simp only [execWith, execRetWith, State.pop] at h ⊢
    cases hk : popEntry (faulting p) s.sp with
    | none => simp [raisedCode, hk] at h0
    | some k => rw [hk] at h; rwa [popEntry_of_faulting hk]
  case call =>
    simp only [execWith, execCallWith, State.push] at h ⊢
    cases hk : pushEntry (faulting p) s.sp with
    | none => simp [raisedCode, hk] at h0
    | some k => rw [hk] at h; rwa [pushEntry_of_faulting hk]
  case drw x y n =>
    have hspan : spanExists s.dataAddr n.toNat = true := exists_of_raises_nothing h0
    simp only [execWith, execDrwWith] at h ⊢
    rwa [if_pos (spanAllowed_of_exists _ hspan), bytesAtWith_of_exists _ hspan] at h ⊢
  case ldBVx x =>
    have hspan : spanExists s.dataAddr 3 = true := exists_of_raises_nothing h0
    simp only [execWith, execLdBVxWith] at h ⊢
    rwa [if_pos (spanAllowed_of_exists _ hspan), storeBytesWith_of_exists (length_bcdDigits _) hspan] at h ⊢
  case ldMemVx x =>
    have hspan : spanExists s.dataAddr (blockLen x) = true := exists_of_raises_nothing h0
    simp only [execWith, execLdMemVxWith] at h ⊢
    rwa [if_pos (spanAllowed_of_exists _ hspan), storeBytesWith_of_exists (length_regBlock s x) hspan] at h ⊢
  case ldVxMem x =>
    have hspan : spanExists s.dataAddr (blockLen x) = true := exists_of_raises_nothing h0
    simp only [execWith, execLdVxMemWith] at h ⊢
    rwa [if_pos (spanAllowed_of_exists _ hspan), loadBlock_of_exists hspan] at h ⊢
  case skpVx x =>
    simp only [execWith, execSkpVxWith] at h ⊢
    cases hk : s.keyAt (faulting p).keyPolicy (s.reg x) with
    | none => simp [raisedCode, hk] at h0
    | some down => rw [hk] at h; rwa [keyAt_of_faulting hk]
  case sknpVx x =>
    simp only [execWith, execSknpVxWith] at h ⊢
    cases hk : s.keyAt (faulting p).keyPolicy (s.reg x) with
    | none => simp [raisedCode, hk] at h0
    | some down => rw [hk] at h; rwa [keyAt_of_faulting hk]
  all_goals exact h

/-! ### The choices that pick a value -/

/-- With at most one key down every `KEYWAIT_PICK` reports the same (93 U7). -/
theorem keyHit_of_unique {s : State} (pick pick' : KeyPick)
    (h : ∀ j k : Fin 16, s.key[j.val] = true → s.key[k.val] = true → j = k) : s.keyHit pick = s.keyHit pick' := by
  cases hk : s.keyHit pick with
  | none => exact (keyHit_none.mpr (keyHit_none.mp hk)).symm
  | some k =>
    cases hk' : s.keyHit pick' with
    | none => rw [keyHit_none.mpr (keyHit_none.mp hk')] at hk; cases hk
    | some k' => rw [h k k' (keyHit_pressed hk) (keyHit_pressed hk')]

/-- Two decoders read a word alike exactly when they find the same row (30 R112). -/
theorem decodeWith_eq_iff {a b : Bool} {op : Opcode} :
    decodeWith a op = decodeWith b op ↔ decodeRow a op = decodeRow b op := by
  unfold decodeWith
  cases decodeRow a op <;> cases decodeRow b op <;> simp

/-- In family 0 the loose decoder differs on the words with low byte E0 or EE and a nonzero `x` (93 U6). -/
theorem decodeFam0_ne_iff {op : Opcode} :
    decodeFam0 false op ≠ decodeFam0 true op ↔ op.toNat / 0x100 ≠ 0 ∧ op.toNat % 0x100 ∈ [0xE0, 0xEE] := by
  have hkk := toNat_opKk op
  have hE0 : (opKk 0x00E0#16).toNat = 0xE0 := rfl
  have hEE : (opKk 0x00EE#16).toNat = 0xEE := rfl
  simp only [decodeFam0, matchesFix, if_true, Bool.false_eq_true, if_false, beq_iff_eq, ← BitVec.toNat_inj, hkk, hE0,
    hEE]
  simp only [BitVec.toNat_ofNat, Nat.reducePow, Nat.reduceMod, List.mem_cons, List.not_mem_nil, or_false]
  by_cases hx : op.toNat / 0x100 = 0
  · have hlow : op.toNat % 256 = op.toNat := by omega
    simp only [hlow, hx, ne_eq, not_true_eq_false, false_and]
  · have hE0' : op.toNat ≠ 224 := by omega
    have hEE' : op.toNat ≠ 238 := by omega
    rw [if_neg hE0', if_neg hEE']
    by_cases h224 : op.toNat % 256 = 224
    · simp [h224, hx]
    · by_cases h238 : op.toNat % 256 = 238
      · simp [h238, hx]
      · simp [h224, h238]

/-- A family-5 or family-9 word has a row under the loose decoder alone exactly when its low nibble is not 0 (93 U6). -/
theorem matchesLow0_ne_iff {op : Opcode} {i : Instr} :
    (if matchesLow0 false op = true then some i else none) ≠ (if matchesLow0 true op = true then some i else none) ↔
      op.toNat % 0x10 ≠ 0 := by
  rw [← matchesLow0_eq_false_iff]
  cases matchesLow0 true op <;> simp [matchesLow0]

/-- The two decoders part on the words of families 0, 5 and 9 that 93 U6 lists and on no other. -/
theorem decodeRow_ne_iff {op : Opcode} : decodeRow false op ≠ decodeRow true op ↔
    (op.toNat / 0x1000 = 0x0 ∧ op.toNat / 0x100 ≠ 0 ∧ op.toNat % 0x100 ∈ [0xE0, 0xEE]) ∨
      (op.toNat / 0x1000 ∈ [0x5, 0x9] ∧ op.toNat % 0x10 ≠ 0) := by
  have hfam := toNat_opFam op
  unfold decodeRow
  split
  case h_1 hf =>
    have h0 : op.toNat / 0x1000 = 0 := by rw [← hfam, hf]; rfl
    rw [decodeFam0_ne_iff]
    simp [h0]
  case h_6 hf | h_10 hf =>
    rw [matchesLow0_ne_iff, ← hfam, hf]
    simp
  case h_16 =>
    have hf : opFam op = 0xF#4 := by
      simp only [imp_false] at *
      bv_omega
    simp [← hfam, hf]
  all_goals
    rename_i hf
    simp [← hfam, hf]

/-! ### The obligations -/

/-- Settles O59: a cycle that ends unfaulted fetched without a fault, so the same word under every policy, and ran it
without a fault, so with the same effect. -/
theorem policiesMatterOnlyWhereTheSpecFaults : Obligations.PoliciesMatterOnlyWhereTheSpecFaults := by
  intro p rnd s t h ht
  obtain ⟨hs, rfl⟩ | ⟨hs, ⟨-, rfl⟩ | ⟨op, hf, rfl⟩ | ⟨i, hf, hexec⟩⟩ := stepWith_cases h
  · exact absurd ht hs
  · exact absurd ht (code_ne_zero (.fetchOutOfRange s.pc))
  · simp only [stepWith, hs, if_true, fetchedWith_of_faulting hf, execUnrecognised]
  · obtain ⟨hraised, rfl⟩ | ⟨h0, -⟩ := execWith_cases hexec
    · exact absurd ht hraised
    · simp only [stepWith, hs, if_true, fetchedWith_of_faulting hf]
      exact execWith_of_faulting h0 hexec

/-- Settles O56: cycle and transactions part from the machine in nothing but the parameters, and the spec's font lists
no cell. -/
theorem specParametersGiveTheMachine : Obligations.SpecParametersGiveTheMachine := by
  refine ⟨stepWith_spec, resetWith_spec, fun t sys => ?_⟩
  rw [transactWith, resetWith_spec]
  exact transactBy_congr t (stepWith_spec sys.core)

/-- Settles O57: reset stores the font over the reset state's memory. -/
theorem resetCopiesTheGivenFont : Obligations.ResetCopiesTheGivenFont := by
  intro p
  refine ⟨length_font p, fun k hk => ?inside, ?glyph0, fun c hc => ?outside, rfl⟩
  case inside =>
    rw [readByte_resetWith, dif_pos ⟨Nat.le_add_right _ _, by omega⟩]
    simp only [Nat.add_sub_cancel_left]
  case glyph0 => rfl
  case outside =>
    have := length_font p
    rw [readByte_resetWith, dif_neg (by omega)]

/-- Settles O60, part by part: the byte reaches `Cxkk` alone; two writes to different registers land in either order;
one key down is every pick's; and the two decoders part in families 0, 5 and 9 alone. -/
theorem choicesMatterOnlyWhereTheSpecSays : Obligations.ChoicesMatterOnlyWhereTheSpecSays := by
  refine ⟨?rnd, ?priority, ?pick, ?strict, ?loose⟩
  case rnd =>
    intro p rnd rnd' i s hi
    cases i
    case rndVxKk x kk => exact absurd rfl (hi x kk)
    all_goals rfl
  case priority =>
    intro p pr rnd i s hi
    cases i
    case addVxVy | subVxVy | shrVx | subnVxVy | shlVx =>
      exact congrArg Host.Outcome.next (setResultAndFlag_of_ne _ _ _ _ _ (by simpa [Instr.flagIsDestination] using hi))
    all_goals rfl
  case pick =>
    intro p pick rnd i s hkeys
    cases i
    case ldVxK x =>
      simp only [execWith, execLdVxKWith]
      rw [keyHit_of_unique pick p.keyWaitPick hkeys]
    all_goals rfl
  case strict =>
    intro op
    rw [ne_eq, decode, spec_decodeStrict, decodeWith_eq_iff]
    exact decodeRow_ne_iff
  case loose =>
    intro x y n
    have loose : ∀ {op : Opcode} {i : Instr}, decodeRow false op = some i → decodeWith false op = .instr i := by
      intro op i h
      simp only [decodeWith, h]
    have hE0 : opKk 0x00E0#16 = 0xE0#8 := rfl
    have hEE : opKk 0x00EE#16 = 0xEE#8 := rfl
    refine ⟨loose ?_, loose ?_, loose ?_, loose ?_⟩
    all_goals simp [decodeRow, decodeFam0, matchesFix, matchesLow0, hE0, hEE]

end Sys2Proof.Parameters
end

section
/-! SUPPORT. Reset, the host's transactions and memory (10_state.md R50, 20_memory.md sections 5 and 7, 60_exceptions.md
section 6, 70_reset_and_hazards.md section 1): what reset leaves, that empty memory is run to its end, what each
transaction does, and that a stored byte reads back. -/

namespace Sys2Proof.HostSide
open Sys2Proof Sys2Proof.Machine Sys2Proof.Laws Sys2Proof.Control Sys2Proof.Cycle

/-! ### Reading after a store and after reset -/

/-- A byte of the reset state: the font's or 0, and none above 0xFFF (10 R50, 20 R71). -/
theorem readByte_reset (a : Nat) : State.reset.readByte a =
    if a > 0xFFF then none else if 0x050 ≤ a ∧ a ≤ 0x09F then some (font.getD (a - 0x050) 0#8) else some 0#8 := by
  have hmem : memGet State.reset.mem a = unlistedByte a := rfl
  rw [State.readByte, hmem, unlistedByte]
  simp only [Config.memSize, Config.fontBase, Config.fontSize]
  by_cases hout : a > 0xFFF
  · rw [if_pos hout, if_neg (by omega)]
  · rw [if_neg hout, if_pos (by omega)]
    by_cases hfont : 0x050 ≤ a ∧ a ≤ 0x09F
    · rw [if_pos hfont, if_pos (by omega)]
    · rw [if_neg hfont, if_neg (by omega)]

/-- Storing bytes inside memory leaves every byte outside them (20 R73). -/
theorem keepsMemoryOutside_storeBytes (s : State) (a : Nat) (bs : List Byte) (h : a + bs.length ≤ Config.memSize) :
    KeepsMemoryOutside a bs.length s (s.storeBytes a bs) := by
  intro c hc
  rw [readByte_storeBytes s a c bs h, dif_neg (by omega)]

/-- Byte `k` of those stored inside memory reads back (20 R73, R77). -/
theorem readByte_storeBytes_add (s : State) (a : Nat) (bs : List Byte) (h : a + bs.length ≤ Config.memSize) {k : Nat}
    (hk : k < bs.length) : (s.storeBytes a bs).readByte (a + k) = some bs[k] := by
  rw [readByte_storeBytes s a (a + k) bs h, dif_pos ⟨Nat.le_add_right _ _, by omega⟩]
  simp only [Nat.add_sub_cancel_left]

/-! ### The empty run -/

/-- The reset state with pc at `a`. -/
def resetAt (a : Nat) : State := { State.reset with pc := BitVec.ofNat 16 a }

/-- From 0x0A0 up the empty memory holds the word 0, which has no row, so a cycle there only advances pc (70 R281). -/
theorem step_resetAt {a : Nat} (hlo : 0x0A0 ≤ a) (hhi : a ≤ 0xFFE) : step (resetAt a) = .next (resetAt (a + 2)) := by
  have hpc : (resetAt a).pc.toNat = a := by
    rw [resetAt, BitVec.toNat_ofNat]
    omega
  have hbyte : ∀ c, 0x0A0 ≤ c → memGet (resetAt a).mem c = 0#8 := by
    intro c hc
    exact if_neg (by simp only [Config.fontBase, Config.fontSize]; omega)
  have hfetch : (resetAt a).fetched = some (.unrecognised 0x0000#16) := by
    rw [fetched_eq, fetch_of_le (by omega), hpc, hbyte a hlo, hbyte (a + 1) (by omega)]
    rfl
  have hnext : (resetAt a).advance = resetAt (a + 2) :=
    congrArg (fun w => { State.reset with pc := w }) (BitVec.ofNat_add a 2).symm
  rw [step_of_fetched_unrecognised rfl hfetch, hnext]

/-- A run goes on from the state its first cycle answers. -/
theorem run_succ_of_step {s t : State} (h : step s = .next t) (n : Nat) :
    Host.Core.run Sys2Proof.core (n + 1) s = Host.Core.run Sys2Proof.core n t := by
  have hcore : Sys2Proof.core.step s = .next t := h
  simp only [Host.Core.run, hcore]

/-- `k` cycles on the empty memory advance pc by `2 * k`, up to the end (70 R281). -/
theorem run_resetAt {k a : Nat} (hlo : 0x0A0 ≤ a) (hhi : a + 2 * k ≤ 0x1000) (j : Nat) :
    Host.Core.run Sys2Proof.core (k + j) (resetAt a) = Host.Core.run Sys2Proof.core j (resetAt (a + 2 * k)) := by
  induction k generalizing a with
  | zero => simp
  | succ k ih =>
    rw [Nat.add_right_comm, run_succ_of_step (step_resetAt hlo (by omega)), ih (by omega) (by omega)]
    congr 2
    omega

/-! ### The obligations -/

/-- Settles O18: each row of the reset table, memory being the unlisted bytes. -/
theorem resetLeavesTheListedValues : Obligations.ResetLeavesTheListedValues := by
  refine ⟨fun r => ?reg, rfl, rfl, rfl, fun k => ?stk, rfl, rfl, pixel_clear, fun k => ?key, rfl, rfl, readByte_reset,
    rfl, rfl⟩
  all_goals exact Vector.getElem_replicate _

/-- Settles O19: from 0x200 the end is 1792 words away, and the fetch at 0x1000 faults. -/
theorem emptyMemoryRunsToItsEndAndFaults : Obligations.EmptyMemoryRunsToItsEndAndFaults := by
  have hend : step (resetAt 0x1000) = .next { resetAt 0x1000 with fault := 1#3 } :=
    step_of_pc_above rfl (by decide)
  exact ⟨run_resetAt (k := 1792) (a := 0x200) (by decide) (by decide) 0,
    (run_resetAt (k := 1792) (a := 0x200) (by decide) (by decide) 1).trans (run_succ_of_step hend 0)⟩

/-- Settles O20: a tick is the countdown of both timers. -/
theorem tickLowersEachTimerByOne : Obligations.TickLowersEachTimerByOne := by
  have toNat_countDown : ∀ b : Byte, (countDown b).toNat = b.toNat - 1 := by
    intro b
    unfold countDown
    split
    · bv_omega
    · omega
  intro sys
  exact ⟨_, rfl, rfl, rfl, toNat_countDown _, toNat_countDown _⟩

/-- Settles O21, by the phase and the length of the program. -/
theorem loadCopiesTheProgramOrRefusesIt : Obligations.LoadCopiesTheProgramOrRefusesIt := by
  intro sys bytes
  obtain ⟨s, ph⟩ := sys
  refine ⟨fun hph => ?illegal, fun hph hlen => ?tooLarge, fun hph hlen => ?loaded⟩
  case illegal =>
    cases ph
    · exact absurd rfl hph
    · rfl
    · rfl
  case tooLarge =>
    subst hph
    simp only [transact, transactBy, transactLoad, State.load, if_pos hlen]
  case loaded =>
    subst hph
    have hin : Config.progBase + bytes.length ≤ Config.memSize := by
      simp only [Config.progBase, Config.memSize]
      omega
    refine ⟨{ core := s.storeBytes Config.progBase bytes, phase := .loaded }, ?_, rfl, rfl,
      fun k hk => readByte_storeBytes_add s _ bytes hin hk, keepsMemoryOutside_storeBytes s _ bytes hin⟩
    simp only [transact, transactBy, transactLoad, State.load, if_neg (Nat.not_lt.mpr hlen)]

/-- Settles O22: each transaction writes its own element. -/
theorem hostTransactionsTouchOnlyTheirOwn : Obligations.HostTransactionsTouchOnlyTheirOwn := by
  intro sys
  refine ⟨fun k b => ⟨_, rfl, rfl, rfl, fun j => ?_⟩, rfl, rfl, ?_⟩
  · show (sys.core.key.set k.val b)[j.val] = _
    rw [Vector.getElem_set]
    simp only [Fin.val_inj, eq_comm]
  · have hsound : (sys.core.st != 0#8) = decide (sys.core.st ≠ 0#8) := by
      rw [Bool.eq_iff_iff]
      simp
    rw [← hsound]
    rfl

/-- Settles O23: the store is of one byte inside memory. -/
theorem storedByteReadsBack : Obligations.StoredByteReadsBack := by
  intro s a c b ha
  rw [readByte_storeBytes s a c [b] ha]
  by_cases hc : c = a
  · subst hc
    simp
  · rw [dif_neg (by simp; omega), if_neg hc]

/-- Settles O55: a cycle answers, and the phase after it is `running`, in which `load` has no move. -/
theorem cycleTransactionRunsOneStep : Obligations.CycleTransactionRunsOneStep := by
  intro sys
  refine ⟨step_total sys.core, fun t ht => ?_, fun sys' r bytes h => ?_⟩
  · simp only [transact, transactBy, transactCycle, ht]
  · obtain ⟨t, ht⟩ := step_total sys.core
    simp only [transact, transactBy, transactCycle, ht] at h
    cases h
    rfl

end Sys2Proof.HostSide
end

section
/-! SUPPORT. The stack, the register skips, `Bnnn` and the fixed points (40_cycle_and_control.md sections 2 to 4,
70_reset_and_hazards.md section 5), the keypad instructions (44_keypad_and_timers.md sections 1 and 2), and the faults
of the stack, of data accesses and of key indices (60_exceptions.md section 1). -/

namespace Sys2Proof.StackAndKeys
open Sys2Proof Sys2Proof.Machine Sys2Proof.Laws Sys2Proof.Control Sys2Proof.LoadAlu Sys2Proof.IndexMemory
open Sys2Proof.Frames Sys2Proof.Cycle

/-! ### Stack -/

/-- Settles O26: a push with room writes the entry at `SP` and moves the pointer up. -/
theorem callPushesTheAdvancedPc : Obligations.CallPushesTheAdvancedPc := by
  intro s nnn hsp
  refine ⟨_, execCall_room nnn hsp, rfl, rfl, fun k => ?_, rfl, fun _ => rfl⟩
  show (s.stk.set s.sp.val (s.pc + 2#16))[k.val] = _
  rw [Vector.getElem_set]
  simp only [eq_comm]

/-- Settles O27: a pop of a nonempty stack reads the entry below `SP` and moves the pointer down. -/
theorem retPopsThePc : Obligations.RetPopsThePc := by
  intro s hsp
  have hlt := s.sp.isLt
  exact ⟨_, execRet_nonempty hsp, rfl, ⟨by omega, rfl⟩, rfl, fun _ => rfl⟩

/-- Settles O28: both instructions raise their code there. -/
theorem stackFaultsChangeNothingElse : Obligations.StackFaultsChangeNothingElse := by
  intro s
  refine ⟨fun hsp nnn => exec_of_raises (raisedCode_eq_two.mpr ⟨nnn, rfl, hsp⟩) (by decide), fun hsp => ?_⟩
  exact exec_of_raises (raisedCode_eq_three.mpr ⟨rfl, hsp⟩) (by decide)

/-- Settles O29: the pop reads the entry the push wrote. -/
theorem retComesBackAfterTheCall : Obligations.RetComesBackAfterTheCall := by
  intro s nnn hsp
  refine ⟨_, _, execCall_room nnn hsp, execRet_nonempty (Nat.succ_ne_zero _), ?_, fun k hk => ?_⟩
  · simp
  · exact Vector.getElem_set_ne hsp k.isLt (Ne.symm hk)

/-! ### Skips and jumps -/

/-- Settles O31: both are the skip rule on a comparison of registers. -/
theorem skipsOnARegister : Obligations.SkipsOnARegister := by
  intro s x y
  refine ⟨⟨s.skipIf (s.reg x == s.reg y), rfl, ?_, onlyPc_skipIf s _⟩,
    ⟨s.skipIf (s.reg x != s.reg y), rfl, ?_, onlyPc_skipIf s _⟩⟩
  · simp
  · simp

/-- Settles O32: 12 and 8 bits add up without a wrap at 16. -/
theorem jpV0AddsV0 : Obligations.JpV0AddsV0 := by
  intro s nnn
  refine ⟨s.jump (indexedTarget s nnn), rfl, ?_, onlyPc_jump s _⟩
  have h12 : nnn.toNat < 4096 := nnn.isLt
  have h8 : (s.reg 0#4).toNat < 256 := (s.reg 0#4).isLt
  rw [jump_pc, indexedTarget, BitVec.toNat_add, toNat_zext16, BitVec.toNat_setWidth]
  omega

/-- With no key down a key wait changes nothing (44 R232). -/
theorem exec_ldVxK_of_no_key {s : State} (x : Reg) (h : ∀ k : Fin 16, s.key[k.val] = false) :
    exec (.ldVxK x) s = .next s := by
  simp only [exec, execLdVxK, execLdVxKWith, keyHit_none.mpr h]

/-- Settles O33: the fetched instruction is the identity on the state. -/
theorem selfJumpAndKeyWaitAreFixedPoints : Obligations.SelfJumpAndKeyWaitAreFixedPoints := by
  intro s hs
  refine ⟨fun nnn hf hself => ⟨hs, ?_⟩, fun x hf hkeys => ⟨hs, ?_⟩⟩
  · rw [step_of_fetched_instr hs hf, exec, execJp, zext16, hself, jump_pc_self]
  · rw [step_of_fetched_instr hs hf, exec_ldVxK_of_no_key x hkeys]

/-! ### Data accesses and keys -/

/-- Settles O46: the four instructions raise code 4 there. -/
theorem dataAccessAboveMemoryFaults : Obligations.DataAccessAboveMemoryFaults := by
  intro s x y n
  have faults : ∀ {i : Instr}, raisedCode Params.spec i s = 4#3 → exec i s = .next { s with fault := 4#3 } :=
    fun h => exec_of_raises h (by decide)
  refine ⟨fun hn hi => ?_, fun hi => ?_, fun hi => ⟨?_, ?_⟩⟩
  all_goals refine faults (raisedCode_eq_four.mpr ?_)
  · exact .inl ⟨x, y, n, rfl, hn, hi⟩
  · exact .inr (.inl ⟨x, rfl, hi⟩)
  · exact .inr (.inr ⟨x, .inl rfl, hi⟩)
  · exact .inr (.inr ⟨x, .inr rfl, hi⟩)

/-- Settles O51: the two skips raise code 5 there. -/
theorem keyIndexAboveFifteenFaults : Obligations.KeyIndexAboveFifteenFaults := by
  intro s x hx
  exact ⟨exec_of_raises (raisedCode_eq_five.mpr ⟨x, .inl rfl, hx⟩) (by decide),
    exec_of_raises (raisedCode_eq_five.mpr ⟨x, .inr rfl, hx⟩) (by decide)⟩

/-- Settles O50: both are the skip rule on the key's level. -/
theorem skipsOnAKey : Obligations.SkipsOnAKey := by
  intro s x hx
  refine ⟨⟨_, execSkpVx_key hx, ?_, onlyPc_skipIf s _⟩, ⟨_, execSknpVx_key hx, ?_, onlyPc_skipIf s _⟩⟩
  · rw [skipIf_pc]
  · rw [skipIf_pc]
    simp only [Bool.not_eq_true']

/-- The key below which none is down is the one the spec's machine reports (44 R232, D12). -/
theorem keyHit_lowest_eq {s : State} {k : Fin 16} (hk : s.key[k.val] = true)
    (hbelow : ∀ j : Fin 16, j < k → s.key[j.val] = false) : s.keyHit .lowest = some k := by
  cases hhit : s.keyHit .lowest with
  | none => rw [keyHit_none.mp hhit k] at hk; cases hk
  | some j =>
    obtain ⟨hj, hjbelow⟩ := keyHit_some hhit
    obtain hlt | heq | hgt := Nat.lt_trichotomy j.val k.val
    · rw [hbelow j hlt] at hj; cases hj
    · rw [Fin.ext heq]
    · rw [hjbelow k hgt] at hk; cases hk

/-- Settles O52: with a hit, `Fx0A` writes one register. -/
theorem keyWaitWaitsOrTakesTheLowestKey : Obligations.KeyWaitWaitsOrTakesTheLowestKey := by
  intro s x
  refine ⟨exec_ldVxK_of_no_key x, fun k hk hbelow => ?_⟩
  have hexec : exec (.ldVxK x) s = .next (s.advance.setReg x (BitVec.ofNat 8 k.val)) := by
    simp only [exec, execLdVxK, execLdVxKWith, spec_keyWaitPick, keyHit_lowest_eq hk hbelow]
  have hlt := k.isLt
  exact completes_of_exec_setReg (·.toNat = k.val) hexec (by rw [BitVec.toNat_ofNat]; omega)

end Sys2Proof.StackAndKeys
end

section
/-! SUPPORT. The instructions that write a flag and the random byte (41_load_and_alu.md R166 to R171, R173;
42_index_and_memory.md R191). First what an instruction that writes a result and a flag leaves, then the flags over the
integers, then the obligations. -/

namespace Sys2Proof.FlagAlu
open Sys2Proof Sys2Proof.Machine Sys2Proof.Laws Sys2Proof.Writes

/-! ### An instruction that writes a result and a flag -/

/-- Advancing pc and writing a result and then a flag changes only those two registers (41 R173). -/
theorem onlyRegs_advance_setResultAndFlag (s : State) (x : Reg) (b : Byte) (c : Bool) :
    OnlyRegs [x, VF] s (s.advance.setResultAndFlag .flag x b c) := by
  refine ⟨rfl, fun r hr => ?_, fun _ => rfl⟩
  simp only [List.mem_cons, List.not_mem_nil, or_false, not_or] at hr
  rw [reg_setResultAndFlag, if_neg hr.2, if_neg hr.1, advance_reg]

/-- An instruction that advances pc and writes the result `b` and then the flag `c` completes with whatever is known of
`b` true of `V[x]` where `x` is not F, whatever is known of the flag true of VF, and nothing else changed. -/
theorem completes_of_exec_setResultAndFlag (P Q : Byte → Prop) {i : Instr} {s : State} {x : Reg} {b : Byte} {c : Bool}
    (h : exec i s = .next (s.advance.setResultAndFlag .flag x b c)) (hb : P b) (hc : Q (flagByte c)) :
    ∃ t, exec i s = .next t ∧ (x ≠ VF → P (t.reg x)) ∧ Q (t.reg VF) ∧ t.pc = s.pc + 2#16 ∧ OnlyRegs [x, VF] s t := by
  refine ⟨_, h, fun hx => ?_, ?_, ?_, onlyRegs_advance_setResultAndFlag s x b c⟩
  · rwa [reg_setResultAndFlag, if_neg hx, if_pos rfl]
  · rwa [reg_setResultAndFlag, if_pos rfl]
  · rw [setResultAndFlag_pc, advance_pc]

/-! ### Results and flags over the integers -/

/-- The flag of a condition is 1 where it holds and else 0 (10 R31). -/
theorem flagByte_decide (p : Prop) [Decidable p] : flagByte (decide p) = if p then 1#8 else 0#8 := by
  by_cases h : p
  · simp [flagByte, h]
  · simp [flagByte, h]

/-- The difference of two bytes, over the integers (41 R167). -/
theorem toNat_byte_sub (a b : Byte) : (a - b).toNat = (256 + a.toNat - b.toNat) % 256 := by
  have := b.isLt
  rw [BitVec.toNat_sub]
  congr 1
  omega

/-- Bit 0 as a flag is the remainder by 2 (41 R168). -/
theorem toNat_flag_lowBit (a : Byte) : (flagByte (lowBit a)).toNat = a.toNat % 2 := by
  rw [flagByte_toNat, lowBit, BitVec.getLsbD, Nat.testBit_zero]
  by_cases h : a.toNat % 2 = 1
  · simp [h]
  · simp [h]; omega

/-- Bit 7 as a flag is the quotient by 128 (41 R170). -/
theorem toNat_flag_highBit (a : Byte) : (flagByte (highBit a)).toNat = a.toNat / 128 := by
  have hlt := a.isLt
  rw [flagByte_toNat, highBit, BitVec.getLsbD, Nat.testBit_eq_decide_div_mod_eq]
  by_cases h : a.toNat / 2 ^ 7 % 2 = 1
  · simp only [h, decide_true, if_true]; omega
  · simp only [h, decide_false, Bool.false_eq_true, if_false]; omega

/-! ### The obligations -/

/-- Settles O36: the sum wraps at 256, and the flag is the carry of the latched operands. -/
theorem addWritesSumAndCarry : Obligations.AddWritesSumAndCarry := fun s x y =>
  completes_of_exec_setResultAndFlag (·.toNat = ((s.reg x).toNat + (s.reg y).toNat) % 256)
    (· = if (s.reg x).toNat + (s.reg y).toNat > 255 then 1#8 else 0#8) rfl (BitVec.toNat_add _ _) (flagByte_decide _)

/-- Settles O37: both write a difference that wraps at 256 and the strict comparison of its operands. -/
theorem subAndSubnWriteDifferenceAndStrictFlag : Obligations.SubAndSubnWriteDifferenceAndStrictFlag := by
  intro s x y
  constructor
  · exact completes_of_exec_setResultAndFlag (·.toNat = (256 + (s.reg x).toNat - (s.reg y).toNat) % 256)
      (· = if (s.reg x).toNat > (s.reg y).toNat then 1#8 else 0#8) rfl (toNat_byte_sub _ _) (flagByte_decide _)
  · exact completes_of_exec_setResultAndFlag (·.toNat = (256 + (s.reg y).toNat - (s.reg x).toNat) % 256)
      (· = if (s.reg y).toNat > (s.reg x).toNat then 1#8 else 0#8) rfl (toNat_byte_sub _ _) (flagByte_decide _)

/-- Settles O38: both shift the latched byte by one and write the bit that falls out. -/
theorem shiftsMoveOneBitIntoVf : Obligations.ShiftsMoveOneBitIntoVf := by
  intro s x y
  constructor
  · refine completes_of_exec_setResultAndFlag (·.toNat = (s.reg x).toNat / 2) (·.toNat = (s.reg x).toNat % 2) rfl ?_
      (toNat_flag_lowBit _)
    rw [BitVec.toNat_ushiftRight, Nat.shiftRight_eq_div_pow, Nat.pow_one]
  · refine completes_of_exec_setResultAndFlag (·.toNat = (s.reg x).toNat * 2 % 256) (·.toNat = (s.reg x).toNat / 128)
      rfl ?_ (toNat_flag_highBit _)
    rw [BitVec.toNat_shiftLeft, Nat.shiftLeft_eq, Nat.pow_one]

/-- Settles O39: `Cxkk` writes one register and the model's counter, with the byte as an operand. -/
theorem rndMasksTheRandomByte : Obligations.RndMasksTheRandomByte := by
  intro s x kk
  have hreg : ∀ b : Byte, ({ s.advance.setReg x (b &&& kk) with draws := s.draws + 1 } : State).reg x = b &&& kk :=
    fun b => reg_setReg_self s.advance x (b &&& kk)
  refine ⟨fun b => ⟨_, rfl, fun k => ?_, rfl, rfl, fun r hr => ?_, fun _ => rfl⟩, _, rfl, rfl, hreg _, rfl⟩
  · rw [hreg, BitVec.getLsbD_and]
  · exact reg_setReg_of_ne s.advance (b &&& kk) (List.ne_of_not_mem_cons hr)

/-- Settles O41: `I` is the sum of words, which wraps at 2^16, and the flag compares the sum before it does. -/
theorem addIAddsAndFlags : Obligations.AddIAddsAndFlags := by
  intro s x
  refine ⟨(s.advance.setI (s.i + (s.reg x).setWidth 16)).setFlag (passesMemory s.i (s.reg x)), rfl, ?sum, ?flag, rfl,
    rfl, fun r hr => ?kept, fun _ => rfl⟩
  case sum =>
    have h8 : (s.reg x).toNat < 256 := (s.reg x).isLt
    rw [setFlag_i, setI_i, BitVec.toNat_add, BitVec.toNat_setWidth]
    omega
  case flag =>
    rw [reg_setFlag, if_pos rfl]
    exact flagByte_decide _
  case kept => exact reg_setFlag_of_ne (List.ne_of_not_mem_cons hr)

end Sys2Proof.FlagAlu
end

section
/-! SUPPORT. The memory instructions inside memory (42_index_and_memory.md R193 to R195, R196; 20_memory.md R77, R82):
what they store and load, and that a store is seen by the next fetch. -/

namespace Sys2Proof.MemoryBlocks
open Sys2Proof Sys2Proof.Machine Sys2Proof.Laws Sys2Proof.HostSide

/-- A block inside memory fits (20 R75). -/
theorem block_fits {s : State} {x : Reg} (h : s.i.toNat + x.toNat ≤ 0xFFF) :
    s.dataAddr + (s.regBlock x).length ≤ Config.memSize := by
  rw [length_regBlock]
  simp only [State.dataAddr, Config.memSize]
  omega

/-- Byte `r` of a stored block is register `r` (42 R194). -/
theorem readByte_regBlock {s t : State} {x r : Reg} (h : s.i.toNat + x.toNat ≤ 0xFFF) (hr : r.toNat ≤ x.toNat) :
    (t.storeBytes s.dataAddr (s.regBlock x)).readByte (s.dataAddr + r.toNat) = some (s.reg r) := by
  have hlen : r.toNat < (s.regBlock x).length := by
    rw [length_regBlock]
    omega
  rw [readByte_storeBytes_add t _ _ (block_fits h) hlen, getElem_regBlock, BitVec.ofNat_toNat, BitVec.setWidth_eq]

/-- The state `Fx55` answers where its block lies inside memory (42 R194). -/
abbrev stored (s : State) (x : Reg) : State :=
  (s.advance.storeBytes s.dataAddr (s.regBlock x)).setI (s.iPastBlock x)

/-- The state `Fx65` answers where its block lies inside memory (42 R195). -/
abbrev loaded (s : State) (x : Reg) : State :=
  (s.advance.loadBlock .fault x s.dataAddr).setI (s.iPastBlock x)

/-- A byte that memory has is read from it (20 R70). -/
theorem readByte_of_le {s : State} {a : Nat} (h : a ≤ 0xFFF) : s.readByte a = some (memGet s.mem a) :=
  if_pos (Nat.lt_succ_of_le h)

/-- A loaded register holds its byte of the block (42 R195). -/
theorem readByte_of_loaded {s : State} {x r : Reg} (h : s.i.toNat + x.toNat ≤ 0xFFF) (hr : r.toNat ≤ x.toNat) :
    s.readByte (s.dataAddr + r.toNat) = some ((loaded s x).reg r) := by
  rw [setI_reg, reg_loadBlock, if_pos hr, cellAt_fault, advance_mem]
  exact readByte_of_le (by simp only [State.dataAddr]; omega)

/-- Settles O42: the three bytes stored are the digits of the latched byte. -/
theorem ldBStoresTheDigits : Obligations.LdBStoresTheDigits := by
  intro s x hi
  have hx : (s.reg x).toNat < 256 := (s.reg x).isLt
  have hfits : s.dataAddr + (bcdDigits (s.reg x)).length ≤ Config.memSize := by
    simp only [State.dataAddr, length_bcdDigits, Config.memSize]
    omega
  have hread : ∀ k (hk : k < 3), (s.advance.storeBytes s.dataAddr (bcdDigits (s.reg x))).readByte (s.dataAddr + k) =
      some ((bcdDigits (s.reg x))[k]'hk) := fun k hk => readByte_storeBytes_add _ _ _ hfits hk
  refine ⟨_, _, _, _, execLdBVx_inside x hi, hread 0 (by decide), hread 1 (by decide), hread 2 (by decide), ?_, ?_, ?_,
    ?_, keepsMemoryOutside_storeBytes s.advance _ _ hfits, rfl, rfl⟩
  all_goals
    simp only [bcdDigits, List.getElem_cons_zero, List.getElem_cons_succ, BitVec.toNat_ofNat]
    omega

/-- Settles O43: the block stored is the latched registers. -/
theorem ldMemStoresTheRegisters : Obligations.LdMemStoresTheRegisters := by
  intro s x hi
  refine ⟨stored s x, execLdMemVx_inside hi, fun r hr => readByte_regBlock hi hr, ?_, iPastBlock_toNat hi, rfl, rfl⟩
  have hkept := keepsMemoryOutside_storeBytes s.advance s.dataAddr (s.regBlock x) (block_fits hi)
  rwa [length_regBlock] at hkept

/-- Settles O44: the registers up to `x` are loaded from the block and those above are kept. -/
theorem ldVxMemLoadsTheRegisters : Obligations.LdVxMemLoadsTheRegisters := by
  intro s x hi
  refine ⟨loaded s x, execLdVxMem_inside hi, fun r hr => readByte_of_loaded hi hr, fun r hr => ?_, iPastBlock_toNat hi,
    ?_, ?_, fun c => ?_⟩
  · exact Writes.reg_loadBlock_of_gt hr
  · rw [setI_pc, loadBlock_pc, advance_pc]
  · exact Frames.advance_loadBlock_setI_eq .fault s x s.dataAddr (s.iPastBlock x)
  · rw [setI_readByte, loadBlock_readByte, advance_readByte]

/-- Settles O45: the load reads the bytes the store wrote. -/
theorem storeThenLoadRestoresTheRegisters : Obligations.StoreThenLoadRestoresTheRegisters := by
  intro s x w hi
  let t : State := { stored s x with i := s.i, v := w }
  refine ⟨stored s x, loaded t x, execLdMemVx_inside hi, execLdVxMem_inside hi, fun r hr => ?_,
    iPastBlock_toNat hi, ?_⟩
  · have hload : t.readByte (s.dataAddr + r.toNat) = some ((loaded t x).reg r) := readByte_of_loaded (s := t) hi hr
    have hstore : t.readByte (s.dataAddr + r.toNat) = some (s.reg r) := readByte_regBlock (t := s.advance) hi hr
    exact Option.some.inj (hload.symm.trans hstore)
  · rw [setI_i, setI_i]
    rfl

/-- Settles O24: pc comes to the block, whose first two bytes are V0 and V1. -/
theorem storeIsSeenByTheNextFetch : Obligations.StoreIsSeenByTheNextFetch := by
  intro s x hx hi hpc
  refine ⟨stored s x, execLdMemVx_inside hi, hpc.symm, ?_⟩
  have hat : (stored s x).pc.toNat = s.dataAddr := congrArg BitVec.toNat hpc.symm
  have hbyte : ∀ r : Reg, r.toNat ≤ x.toNat → memGet (stored s x).mem (s.dataAddr + r.toNat) = s.reg r := by
    intro r hr
    have hread : (stored s x).readByte (s.dataAddr + r.toNat) = some (s.reg r) := readByte_regBlock hi hr
    exact (Control.readByte_eq_some.mp hread).2
  rw [fetch_of_le (by rw [hat]; simp only [State.dataAddr]; omega), hat]
  have hv0 : memGet (stored s x).mem s.dataAddr = s.reg 0#4 := hbyte 0#4 (Nat.zero_le _)
  have hv1 : memGet (stored s x).mem (s.dataAddr + 1) = s.reg 1#4 := hbyte 1#4 hx
  rw [hv0, hv1]

end Sys2Proof.MemoryBlocks
end

section
/-! SUPPORT. `Dxyn` (43_display.md sections 2 to 4): the sprite the pixel writer is given is the set `S` of R214, so the
draw flips exactly its pixels and flags a collision exactly when one of them was on; and a second equal draw undoes the
first. -/

namespace Sys2Proof.Sprites
open Sys2Proof Sys2Proof.Machine Sys2Proof.Laws Sys2Proof.Writes Sys2Proof.MemoryBlocks

/-- The framebuffer and the collision bit after the sprite `Dxyn` draws from `s` (43 R211, R212). -/
def drawnCanvas (s : State) (x y : Reg) (n : Nibble) : Canvas :=
  (Canvas.mk s.fb false).plotRows true (s.reg x).toNat (s.reg y).toNat (s.bytesAt s.dataAddr n.toNat)

/-- The state `Dxyn` answers where it does not fault (43 R211). -/
def drawn (s : State) (x y : Reg) (n : Nibble) : State :=
  { s.advance with fb := (drawnCanvas s x y n).fb, rd := true }.setFlag (drawnCanvas s x y n).coll

section
variable {s : State} {x y : Reg} {n : Nibble}

/-- A sprite with no row or inside memory exists (20 R75). -/
theorem spanExists_sprite (h : n.toNat = 0 ∨ s.i.toNat + n.toNat - 1 ≤ 0xFFF) :
    spanExists s.dataAddr n.toNat = true := by
  rw [spanExists_iff]
  simp only [State.dataAddr]
  omega

/-- `Dxyn` on a sprite with no row or inside memory draws it (43 R211, R215). -/
theorem exec_drw_inside (h : n.toNat = 0 ∨ s.i.toNat + n.toNat - 1 ≤ 0xFFF) :
    exec (.drw x y n) s = .next (drawn s x y n) :=
  if_pos (spanExists_sprite h)

/-- The sprite the pixel writer is given covers the set `S` (43 R214, bit order R213). -/
theorem spriteHits_iff_covers (h : n.toNat = 0 ∨ s.i.toNat + n.toNat - 1 ≤ 0xFFF) (px py : Nat) :
    SpriteHits true (s.reg x).toNat (s.reg y).toNat (s.bytesAt s.dataAddr n.toNat) px py ↔
      SpriteCovers s x y n px py := by
  have hbyte : ∀ r, r < n.toNat → s.readByte (s.i.toNat + r) = some (memGet s.mem (s.i.toNat + r)) :=
    fun r hr => readByte_of_le (by omega)
  constructor
  · rintro ⟨r, hr, c, hc, hbit, hpx, hpy⟩
    rw [getElem_bytesAt] at hbit
    rw [length_bytesAt] at hr
    exact ⟨r, c, _, hr, hc, hbyte r hr, hbit, hpx, hpy⟩
  · rintro ⟨r, c, b, hr, hc, hb, hbit, hpx, hpy⟩
    obtain rfl : memGet s.mem (s.i.toNat + r) = b := Option.some.inj ((hbyte r hr).symm.trans hb)
    refine ⟨r, by rwa [length_bytesAt], c, hc, ?_, hpx, hpy⟩
    rw [getElem_bytesAt]
    exact hbit

/-- A sprite has at most fifteen rows, so no two of them meet around the edge (43 R214). -/
theorem length_sprite_le (s : State) (n : Nibble) : (s.bytesAt s.dataAddr n.toNat).length ≤ 32 := by
  have := n.isLt
  rw [length_bytesAt]
  omega

/-- The draw flips the covered pixels and no other (43 R214). -/
theorem pixel_drawn (h : n.toNat = 0 ∨ s.i.toNat + n.toNat - 1 ≤ 0xFFF) (px py : Nat) :
    (SpriteCovers s x y n px py → Framebuffer.pixel (drawn s x y n).fb px py = !Framebuffer.pixel s.fb px py) ∧
      (¬ SpriteCovers s x y n px py → Framebuffer.pixel (drawn s x y n).fb px py = Framebuffer.pixel s.fb px py) := by
  rw [← spriteHits_iff_covers h]
  exact pixel_plotRows true _ _ _ _ (length_sprite_le s n) px py

/-- The collision bit is set exactly when a covered pixel was on (43 R212, R214). -/
theorem coll_drawn (h : n.toNat = 0 ∨ s.i.toNat + n.toNat - 1 ≤ 0xFFF) :
    (drawnCanvas s x y n).coll = true ↔ ∃ px py, SpriteCovers s x y n px py ∧ Framebuffer.pixel s.fb px py = true := by
  simp only [← spriteHits_iff_covers h]
  exact (coll_plotRows true _ _ _ _ (length_sprite_le s n)).trans (or_iff_right Bool.false_ne_true)

/-- The collision bit stays clear where every covered pixel was off (43 R212). -/
theorem coll_drawn_eq_false (h : n.toNat = 0 ∨ s.i.toNat + n.toNat - 1 ≤ 0xFFF)
    (hoff : ∀ px py, SpriteCovers s x y n px py → Framebuffer.pixel s.fb px py = false) :
    (drawnCanvas s x y n).coll = false := by
  rw [← Bool.not_eq_true, coll_drawn h]
  rintro ⟨px, py, hcov, hon⟩
  rw [hoff px py hcov] at hon
  cases hon

/-- VF after the draw is the collision bit (43 R212). -/
theorem reg_VF_drawn : (drawn s x y n).reg VF = flagByte (drawnCanvas s x y n).coll := by
  rw [drawn, reg_setFlag, if_pos rfl]

/-- The draw keeps every register but VF (43 R211). -/
theorem reg_drawn_of_ne {r : Reg} (hr : r ≠ VF) : (drawn s x y n).reg r = s.reg r := by
  rw [drawn, reg_setFlag_of_ne hr]
  rfl

/-- After a draw whose coordinates are not in VF the same pixels are covered (43 R214). -/
theorem covers_drawn_iff (hx : x ≠ VF) (hy : y ≠ VF) (px py : Nat) :
    SpriteCovers (drawn s x y n) x y n px py ↔ SpriteCovers s x y n px py := by
  unfold SpriteCovers
  rw [reg_drawn_of_ne hx, reg_drawn_of_ne hy]
  rfl

end

/-- Settles O48: the draw in closed form, its flag being the collision bit. -/
theorem drwFlipsTheSpriteAndFlagsCollision : Obligations.DrwFlipsTheSpriteAndFlagsCollision := by
  intro s x y n h
  refine ⟨drawn s x y n, exec_drw_inside h, pixel_drawn h, fun hon => ?_, fun hoff => ?_, rfl, rfl, rfl,
    fun r hr => reg_drawn_of_ne (List.ne_of_not_mem_cons hr), fun _ => rfl⟩
  · rw [reg_VF_drawn, (coll_drawn h).mpr hon]
    rfl
  · rw [reg_VF_drawn, coll_drawn_eq_false h hoff]
    rfl

/-- Settles O49: the second draw covers the pixels the first did, so it flips them back, and on a clear framebuffer it
finds exactly them on. -/
theorem drawingTwiceErases : Obligations.DrawingTwiceErases := by
  intro s x y n hx hy h
  have hcov := covers_drawn_iff (s := s) (n := n) hx hy
  let t := drawn s x y n
  have ht : n.toNat = 0 ∨ t.i.toNat + n.toNat - 1 ≤ 0xFFF := h
  refine ⟨t, drawn t x y n, exec_drw_inside h, exec_drw_inside ht, ?erased, fun hclear => ⟨?first, ?second⟩⟩
  case erased =>
    refine framebuffer_ext fun px py _ _ => ?_
    obtain ⟨hflip, hkeep⟩ := pixel_drawn h (x := x) (y := y) px py
    obtain ⟨hflip', hkeep'⟩ := pixel_drawn ht (x := x) (y := y) px py
    by_cases hin : SpriteCovers s x y n px py
    · rw [hflip' ((hcov px py).mpr hin), hflip hin, Bool.not_not]
    · rw [hkeep' (mt (hcov px py).mp hin), hkeep hin]
  case first =>
    rw [reg_VF_drawn, coll_drawn_eq_false h fun px py _ => hclear px py]
    rfl
  case second =>
    have hone : ∀ c : Bool, flagByte c = 1#8 ↔ c = true := by decide
    rw [reg_VF_drawn, hone, coll_drawn ht]
    constructor
    · rintro ⟨px, py, hin, -⟩
      exact ⟨px, py, (hcov px py).mp hin⟩
    · rintro ⟨px, py, hin⟩
      refine ⟨px, py, (hcov px py).mpr hin, ?_⟩
      rw [(pixel_drawn h px py).1 hin, hclear px py, Bool.not_false]

end Sys2Proof.Sprites
end
